-- ==== Sys2Proof/Word.lean ====
section
/-! DEFINITION. The word types of BIT5-CORE (spec/00_scope.md R8, R12): bytes, 5-bit codes, 128-bit cipher blocks and
32-bit lengths. -/

namespace Sys2Proof

/-- A byte, which is also one character (R8 BYTEW, R9 CHARW). -/
abbrev Byte := BitVec 8

/-- A 5-bit code: the position of a symbol in the alphabet (R8 CODEW). -/
abbrev Code := BitVec 5

/-- A 16-byte block or key seen as a 128-bit number, byte 0 its most significant byte (R53). -/
abbrev Block := BitVec 128

/-- The value of a length register (R9 LENW). -/
abbrev Len := BitVec 32

end Sys2Proof
end

