-- ==== Sys2Proof/Syntax.lean ====
section
/-! DEFINITION. The commands of BIT5-CORE: one constructor per row of spec/opcode_table.json (spec/30_encoding.md R71). -/

namespace Sys2Proof

/-- A command. The only operand bit of a command word is the key-present flag K of RUNENC and RUNDEC (R70, R72); every
other operand is implicit (R77). -/
inductive Instr where
  /-- ENCODE, OP 0: text to packed bytes (R125). -/
  | encode
  /-- DECODE, OP 1: packed bytes to text (R126). -/
  | decode
  /-- ENCRYPT, OP 2: the keyed transform of the buffer (R165). -/
  | encrypt
  /-- DECRYPT, OP 3: its inverse (R166). -/
  | decrypt
  /-- RUNENC, OP 4: ENCODE, then ENCRYPT when K is set (R193). -/
  | runenc (k : Bool)
  /-- RUNDEC, OP 5: DECRYPT when K is set, then DECODE (R194). -/
  | rundec (k : Bool)
  /-- GENKEY, OP 6: sixteen bytes from the entropy port (R167). -/
  | genkey
  deriving DecidableEq, Repr

end Sys2Proof
end

