-- ==== Sys2Proof/Decode.lean ====
section
/-! DEFINITION. `DecodeCmd` of spec/30_encoding.md R74 and R75, total on the 256 command words, the encoder of the same
table, and the match and mask rows of spec/opcode_table.json. -/

namespace Sys2Proof

/-- Why a command word names no operation (R75). The spec has the one outcome `Illegal`; the three names say which check
of R70 and R71 the word fails, and none of them changes what an illegal word does. -/
inductive IllegalWord where
  /-- The reserved field Z, bits 7:4, is not 0. -/
  | reservedBits
  /-- OP is 7: no operation has that number. -/
  | noOperation
  /-- The K bit is set in a word of an operation other than RUNENC and RUNDEC. -/
  | keyFlag
  deriving DecidableEq, Repr

/-- Field Z, bits 7:4 of the command word (R70). -/
def fieldZ (w : Byte) : BitVec 4 := w.extractLsb' 4 4

/-- Field K, bit 3 of the command word (R70). -/
def fieldK (w : Byte) : Bool := w.getLsbD 3

/-- Field OP, bits 2:0 of the command word (R70). -/
def fieldOp (w : Byte) : BitVec 3 := w.extractLsb' 0 3

/-- An operation whose words have K fixed to 0 (R70). -/
def withoutKey (k : Bool) (i : Instr) : Except IllegalWord Instr :=
  if k then .error .keyFlag else .ok i

/-- `DecodeCmd(w)` (R74). -/
def decodeCmd (w : Byte) : Except IllegalWord Instr :=
  if fieldZ w ≠ 0#4 then .error .reservedBits
  else match (fieldOp w).toNat with
    | 0 => withoutKey (fieldK w) .encode
    | 1 => withoutKey (fieldK w) .decode
    | 2 => withoutKey (fieldK w) .encrypt
    | 3 => withoutKey (fieldK w) .decrypt
    | 4 => .ok (.runenc (fieldK w))
    | 5 => .ok (.rundec (fieldK w))
    | 6 => withoutKey (fieldK w) .genkey
    | _ => .error .noOperation

/-- The operation number of a command (R71). -/
def opNumber : Instr → BitVec 3
  | .encode => 0#3
  | .decode => 1#3
  | .encrypt => 2#3
  | .decrypt => 3#3
  | .runenc _ => 4#3
  | .rundec _ => 5#3
  | .genkey => 6#3

/-- The K bit of a command's word: 0 for every command but RUNENC and RUNDEC (R70). -/
def keyFlag : Instr → Bool
  | .encode => false
  | .decode => false
  | .encrypt => false
  | .decrypt => false
  | .runenc k => k
  | .rundec k => k
  | .genkey => false

/-- The command word of a command: Z = 0, then K, then OP (R70, R82). -/
def encodeWord (i : Instr) : Byte := 0#4 ++ BitVec.ofBool (keyFlag i) ++ opNumber i

/-- One row of the match and mask table of R74. -/
structure OpcodeRow where
  mnemonic : String
  pattern : Byte
  mask : Byte
  deriving DecidableEq, Repr

/-- The table of R74, in its order. -/
def opcodeRows : List OpcodeRow :=
  [⟨"ENCODE", 0x00#8, 0xFF#8⟩, ⟨"DECODE", 0x01#8, 0xFF#8⟩, ⟨"ENCRYPT", 0x02#8, 0xFF#8⟩,
   ⟨"DECRYPT", 0x03#8, 0xFF#8⟩, ⟨"RUNENC", 0x04#8, 0xF7#8⟩, ⟨"RUNDEC", 0x05#8, 0xF7#8⟩,
   ⟨"GENKEY", 0x06#8, 0xFF#8⟩]

/-- A word selects a row when `w and mask = match` (R74). -/
def OpcodeRow.selects (r : OpcodeRow) (w : Byte) : Bool := w &&& r.mask == r.pattern

/-- The mnemonic of a command (R71). -/
def mnemonicOf : Instr → String
  | .encode => "ENCODE"
  | .decode => "DECODE"
  | .encrypt => "ENCRYPT"
  | .decrypt => "DECRYPT"
  | .runenc _ => "RUNENC"
  | .rundec _ => "RUNDEC"
  | .genkey => "GENKEY"

/-- What the decoder reads from the word `w` of `nbits` bits, numbered as spec/opcode_table.json numbers them: every command
is exactly one 8-bit word (R76). -/
def decodeTableWord (nbits w : Nat) : Option Instr :=
  match decodeCmd (BitVec.ofNat 8 (w % 2 ^ nbits)) with
  | .ok i => some i
  | .error _ => none

end Sys2Proof
end

