-- ==== Sys2Proof/Machine/Bits.lean ====
section
/-! DEFINITION. Bit strings, byte strings and the numbers they hold (spec/00_scope.md R12 to R14, spec/20_memory.md R53, R56,
R57, spec/42_fpe_feistel.md R145). -/

namespace Sys2Proof.Machine

/-- ceil(a / b). -/
def ceilDiv (a b : Nat) : Nat := (a + (b - 1)) / b

/-- NUM2(X): the number a bit string holds, first bit most significant (R145). -/
def num2 (x : List Bool) : Nat := x.foldl (fun acc b => 2 * acc + b.toNat) 0

/-- STR2(m, x): the bit string of length `m` that holds `x`, for `x < 2^m` (R145). -/
def str2 : Nat → Nat → List Bool
  | 0, _ => []
  | m + 1, x => str2 m (x / 2) ++ [decide (x % 2 = 1)]

/-- NUMB(S): the number a byte string holds, first byte most significant (R14). -/
def numB (s : List Byte) : Nat := s.foldl (fun acc v => 256 * acc + v.toNat) 0

/-- BE(k, x): the `k`-byte string that holds `x`, most significant byte first, for `x < 256^k` (R14). -/
def be : Nat → Nat → List Byte
  | 0, _ => []
  | k + 1, x => be k (x / 256) ++ [BitVec.ofNat 8 x]

/-- A 16-byte string as a block (R53). -/
def blockOf (s : List Byte) : Block := BitVec.ofNat 128 (numB s)

/-- A block as a 16-byte string (R53). -/
def blockBytes (x : Block) : List Byte := be 16 x.toNat

/-- The bits of a code in gearbox order, most significant first (R56). -/
def codeBits (k : Code) : List Bool :=
  [k.getLsbD 4, k.getLsbD 3, k.getLsbD 2, k.getLsbD 1, k.getLsbD 0]

/-- The bits of a byte in gearbox order, most significant first (R56). -/
def byteBits (v : Byte) : List Bool :=
  [v.getLsbD 7, v.getLsbD 6, v.getLsbD 5, v.getLsbD 4, v.getLsbD 3, v.getLsbD 2, v.getLsbD 1, v.getLsbD 0]

/-- The bits of a byte in FPE order, least significant first (R57). -/
def byteNumerals (v : Byte) : List Bool :=
  [v.getLsbD 0, v.getLsbD 1, v.getLsbD 2, v.getLsbD 3, v.getLsbD 4, v.getLsbD 5, v.getLsbD 6, v.getLsbD 7]

/-- The code with the given bits, most significant first (R56). -/
def codeOfBits (x : List Bool) : Code := BitVec.ofNat 5 (num2 x)

/-- The byte with the given bits, most significant first (R56). -/
def byteOfBits (x : List Bool) : Byte := BitVec.ofNat 8 (num2 x)

end Sys2Proof.Machine
end

