-- ==== Sys2Proof/Machine/Datapath.lean ====
section
/-! DEFINITION. The sequencer and datapath registers of spec/10_state.md R33 to R36. They exist while a command executes,
the host can see none of them, and their values between commands are unspecified (R37). -/

namespace Sys2Proof.Machine

/-- The values of the stage register STG (R33, spec/43_pipeline.md R195). -/
inductive Stage where
  | none
  | mapPack
  | fpeEnc
  | fpeDec
  | unpackMap
  | gen
  deriving DecidableEq, Repr, Inhabited

/-- The internal registers. PH is not among them: it equals STATUS.BUSY (R33) and is read from STATUS. -/
structure Datapath where
  /-- STG, the stage the command is in (R33). -/
  stg : Stage
  /-- RND, the Feistel round index (R33). -/
  rnd : Fin 10
  /-- ACC, the gearbox accumulator (R34). -/
  acc : BitVec 12
  /-- CNT, the gearbox bit counter, 0 to 12 (R34). -/
  cnt : Fin 13
  /-- A, the left half (R35). -/
  halfA : List Bool
  /-- B, the right half (R35). -/
  halfB : List Bool
  /-- P, the constant block (R35, R147). -/
  blkP : Block
  /-- Y, the chain accumulator (R35, R149). -/
  blkY : Block
  /-- R, the round PRF output (R35, R150). -/
  blkR : Block
  /-- S, the expanded string (R35, R150). -/
  strS : List Byte
  /-- y, the round value (R35, R150). -/
  numY : Nat
  /-- WBUF, the bytes held between the two stages of RUNENC and RUNDEC (R36). -/
  wbuf : List Byte
  /-- WLEN, the length of WBUF (R36). -/
  wlen : Len
  deriving DecidableEq, Repr, Inhabited

end Sys2Proof.Machine
end

