-- ==== Sys2Proof/Config.lean ====
section
/-! DEFINITION. What spec/00_scope.md R9 and spec/10_state.md R40 leave to the platform, fixed for a whole run, and the free
values: constants with no body, of which nothing can be proved but the bounds the spec sets. -/

namespace Sys2Proof

/-- CIPH(K, X), the external 128-bit block cipher: a total deterministic function and nothing else (R62). -/
opaque Config.ciph : Block → Block → Block

/-- CIPH_KEY_OK(K), whether the cipher takes the key (R69). -/
opaque Config.ciphKeyOk : Block → Bool

/-- CAP_IN less one: one of 2^29 - 1 = 536870911 numbers. -/
opaque Config.capInLessOne : Fin 536870911

/-- CAP_IN, the bytes of IBUF: any number from 1 to 2^29 - 1 (R9). -/
def Config.capIn : Nat := Config.capInLessOne.val + 1

/-- CAP_OUT = max(16, floor(8 * CAP_IN / 5)), the bytes of OBUF (R9). -/
def Config.capOut : Nat := max 16 (8 * Config.capIn / 5)

/-- The 31 symbol bytes: a to z, space, comma, period, colon, line feed, in code order (spec/40_mapper.md R91). -/
def Config.symbolBytes : List Byte :=
  (List.range 26).map (fun k => BitVec.ofNat 8 (0x61 + k)) ++ [0x20#8, 0x2C#8, 0x2E#8, 0x3A#8, 0x0A#8]

/-- The 225 bytes that UNK_CHAR may be: every byte that is not a symbol byte (R96). -/
def Config.unkBytes : List Byte :=
  ((List.range 256).map (BitVec.ofNat 8)).filter (fun b => !Config.symbolBytes.contains b)

theorem Config.unkBytes_length : Config.unkBytes.length = 225 := by decide +kernel

/-- Which of the allowed bytes UNK_CHAR is. -/
opaque Config.unkIndex : Fin 225

/-- UNK_CHAR, the byte that stands for code 31 in decoded text (R9, R96). -/
def Config.unkChar : Byte :=
  Config.unkBytes[Config.unkIndex.val]'(by rw [Config.unkBytes_length]; exact Config.unkIndex.isLt)

/-- DRAW16(): the answer to the query of the entropy port with the given number, any 16 bytes (R64). -/
opaque Config.entropy : Nat → Block

/-- A byte under no law: what an unspecified OBUF byte reads as (R29). Its argument counts the free values taken. -/
opaque Config.freeByte : Nat → Byte

/-- What IBUF byte `j` holds until it is written: `Config.ibufInit seed j`, unknown and stable, with a new seed at every
reset (R39, spec/93_implementation_defined.md U3). -/
opaque Config.ibufInit : Nat → Nat → Byte

/-- The internal registers after a command: unspecified (R37). Its argument counts the free values taken. -/
opaque Config.freeDatapath : Nat → Machine.Datapath

end Sys2Proof
end

