-- ==== Sys2Proof/Machine/Mapper.lean ====
section
/-! DEFINITION. MAP, the symbol-to-code mapper (spec/40_mapper.md R90 to R98). -/

namespace Sys2Proof.Machine

/-- `fold(c)`: ASCII capitals to lower case (R93). -/
def caseFold (c : Byte) : Byte := if 0x41#8 ≤ c ∧ c ≤ 0x5A#8 then c + 0x20#8 else c

/-- `S2C(c)`: the 5-bit code of a character; 31 for every character outside the alphabet (R92, R94). -/
def s2c (c : Byte) : Code :=
  let f := caseFold c
  if 0x61#8 ≤ f ∧ f ≤ 0x7A#8 then (f - 0x61#8).setWidth 5
  else if f = 0x20#8 then 26#5
  else if f = 0x2C#8 then 27#5
  else if f = 0x2E#8 then 28#5
  else if f = 0x3A#8 then 29#5
  else if f = 0x0A#8 then 30#5
  else 31#5

/-- `C2S(k)`: the byte that stands for a code, `unk` for code 31 (R95). -/
def c2s (unk : Byte) (k : Code) : Byte :=
  if k ≤ 25#5 then 0x61#8 + k.setWidth 8
  else if k = 26#5 then 0x20#8
  else if k = 27#5 then 0x2C#8
  else if k = 28#5 then 0x2E#8
  else if k = 29#5 then 0x3A#8
  else if k = 30#5 then 0x0A#8
  else unk

/-- The contents of the S2C ROM, index 0 first, written from the index ranges of R97 (R31). -/
def s2cRom : List Code :=
  List.replicate 10 31#5 ++ [30#5] ++ List.replicate 21 31#5 ++ [26#5] ++ List.replicate 11 31#5 ++ [27#5] ++
  [31#5] ++ [28#5] ++ List.replicate 11 31#5 ++ [29#5] ++ List.replicate 6 31#5 ++
  (List.range 26).map (BitVec.ofNat 5) ++ List.replicate 6 31#5 ++
  (List.range 26).map (BitVec.ofNat 5) ++ List.replicate 133 31#5

/-- The contents of the C2S ROM, index 0 first, written from the output bytes of R91 (R32): the 31 symbol bytes in code
order, then UNK_CHAR. -/
def c2sRom : List Byte := Config.symbolBytes ++ [Config.unkChar]

end Sys2Proof.Machine
end

