-- ==== Sys2Proof/Machine/Gearbox.lean ====
section
/-! DEFINITION. GBX, the bit gearbox, and the codec functions ENC and DEC (spec/41_gearbox_codec.md R110 to R116, R127). -/

namespace Sys2Proof.Machine

/-- `BITS5(c)`: each code's five bits, most significant first, in input order (R110). -/
def bits5 (c : List Code) : List Bool := c.flatMap codeBits

/-- The bytes that `n` codes pack into, ceil(5n / 8) (R111). -/
def packedLen (n : Nat) : Nat := ceilDiv (5 * n) 8

/-- The pad bits after `n` codes, 8m - 5n (R112). -/
def padBits (n : Nat) : Nat := 8 * packedLen n - 5 * n

/-- A bit stream cut into groups of 8, the first bit of a group becoming bit 7 of its byte (R111). -/
def bytesOfBits : List Bool → List Byte
  | b7 :: b6 :: b5 :: b4 :: b3 :: b2 :: b1 :: b0 :: rest =>
    byteOfBits [b7, b6, b5, b4, b3, b2, b1, b0] :: bytesOfBits rest
  | _ => []

/-- A bit stream cut into groups of 5, a group of fewer than 5 bits at the end dropped (R114, R115). -/
def codesOfBits : List Bool → List Code
  | b4 :: b3 :: b2 :: b1 :: b0 :: rest => codeOfBits [b4, b3, b2, b1, b0] :: codesOfBits rest
  | _ => []

/-- `PACK5(c)`: the bit stream of the codes, completed with zero bits, as bytes (R111, R112). -/
def pack5 (c : List Code) : List Byte :=
  bytesOfBits (bits5 c ++ List.replicate (padBits c.length) false)

/-- The codes that `L` bytes hold, floor(8L / 5) (R114). -/
def unpackedLen (l : Nat) : Nat := 8 * l / 5

/-- `UNPACK5(b)`: the bit stream of the bytes as codes (R114). -/
def unpack5 (b : List Byte) : List Code := codesOfBits (b.flatMap byteBits)

/-- `ENC(t)` (R127). -/
def enc (t : List Byte) : List Byte := pack5 (t.map s2c)

/-- `DEC(b)`, with `unk` for UNK_CHAR (R127). -/
def dec (unk : Byte) (b : List Byte) : List Byte := (unpack5 b).map (c2s unk)

/-- `fold*(t)`: `C2S(S2C(.))` of each character (R128). -/
def foldStar (unk : Byte) (t : List Byte) : List Byte := t.map (fun c => c2s unk (s2c c))

end Sys2Proof.Machine
end

