-- ==== Sys2Proof/Machine/Feistel.lean ====
section
/-! DEFINITION. FPE, the format-preserving Feistel engine: FF1 with radix 2, the empty tweak and ten rounds over an arbitrary
128-bit block cipher `ciph` (spec/42_fpe_feistel.md R140 to R161). -/

namespace Sys2Proof.Machine

/-- `BITS_LE(buf)`: the numerals of a byte buffer, each byte least significant bit first (R143). -/
def bitsLe (buf : List Byte) : List Bool := buf.flatMap byteNumerals

/-- `BYTES_LE(X)`: eight numerals make a byte, the first of them its bit 0 (R144). -/
def bytesLe : List Bool → List Byte
  | x0 :: x1 :: x2 :: x3 :: x4 :: x5 :: x6 :: x7 :: rest =>
    byteOfBits [x7, x6, x5, x4, x3, x2, x1, x0] :: bytesLe rest
  | _ => []

/-- `u`, the length of the left half of `n` numerals (R146). -/
def fpeU (n : Nat) : Nat := n / 2

/-- `v`, the length of the right half (R146). -/
def fpeV (n : Nat) : Nat := n - fpeU n

/-- `b`, the bytes needed to hold a half as a number (R146). -/
def fpeB (n : Nat) : Nat := ceilDiv (fpeV n) 8

/-- `d`, the bytes of cipher output used per round (R146). -/
def fpeD (n : Nat) : Nat := 4 * ceilDiv (fpeB n) 4 + 4

/-- `z = (-b - 1) mod 16`, the zero bytes that begin `Q` (R148). -/
def fpeZ (n : Nat) : Nat := (16 - (fpeB n + 1) % 16) % 16

/-- The constant block `P`, as bytes (R147). -/
def pBytes (n : Nat) : List Byte :=
  [0x01#8, 0x02#8, 0x01#8] ++ [0x00#8, 0x00#8, 0x02#8] ++ [0x0A#8] ++ be 1 (fpeU n % 256) ++ be 4 n ++
  [0x00#8, 0x00#8, 0x00#8, 0x00#8]

/-- The round block string `Q(i, H)` (R148). -/
def qBytes (n i : Nat) (h : List Bool) : List Byte :=
  List.replicate (fpeZ n) 0x00#8 ++ be 1 i ++ be (fpeB n) (num2 h)

/-- A byte string cut into 16-byte blocks, `M[16j .. 16j+16)` for each `j` (R149). -/
def blocksOf (s : List Byte) : List Block :=
  (List.range (s.length / 16)).map (fun j => blockOf ((s.drop (16 * j)).take 16))

/-- `PRF(K, M)`: the last block of a cipher-block chain with zero start (R149). -/
def prf (ciph : Block → Block → Block) (k : Block) (s : List Byte) : Block :=
  (blocksOf s).foldl (fun y x => ciph k (y ^^^ x)) 0#128

/-- `R` of a round: `PRF(K, P || Q(i, H))` (R150). -/
def roundPrf (ciph : Block → Block → Block) (k : Block) (n i : Nat) (h : List Bool) : Block :=
  prf ciph k (pBytes n ++ qBytes n i h)

/-- The numbers of the expansion blocks, 1 to ceil(d / 16) - 1 (R150). -/
def expansionIndices (n : Nat) : List Nat := (List.range (ceilDiv (fpeD n) 16 - 1)).map (· + 1)

/-- `S` of a round: `R`, then `CIPH(K, R xor BE(16, j))` for each expansion block (R150). -/
def expand (ciph : Block → Block → Block) (k : Block) (n : Nat) (r : Block) : List Byte :=
  blockBytes r ++ (expansionIndices n).flatMap (fun j => blockBytes (ciph k (r ^^^ BitVec.ofNat 128 j)))

/-- The round value `YV(K, i, H)` (R150). -/
def roundValue (ciph : Block → Block → Block) (k : Block) (n i : Nat) (h : List Bool) : Nat :=
  numB ((expand ciph k n (roundPrf ciph k n i h)).take (fpeD n))

/-- `m` of round `i`: `u` in an even round, `v` in an odd one (R151). -/
def roundLen (n i : Nat) : Nat := if i % 2 = 0 then fpeU n else fpeV n

/-- Encryption round `i` on the halves `(A, B)` (R151). -/
def encRound (ciph : Block → Block → Block) (k : Block) (n i : Nat) (ab : List Bool × List Bool) :
    List Bool × List Bool :=
  let m := roundLen n i
  (ab.2, str2 m ((num2 ab.1 + roundValue ciph k n i ab.2) % 2 ^ m))

/-- `(a - y) mod 2^m`, the non-negative residue (R153, spec/43_pipeline.md R202). -/
def subMod (a y m : Nat) : Nat := (((a : Int) - (y : Int)) % ((2 ^ m : Nat) : Int)).toNat

/-- Decryption round `i` on the halves `(A, B)` (R153). -/
def decRound (ciph : Block → Block → Block) (k : Block) (n i : Nat) (ab : List Bool × List Bool) :
    List Bool × List Bool :=
  let m := roundLen n i
  (str2 m (subMod (num2 ab.2) (roundValue ciph k n i ab.1) m), ab.1)

/-- The round indices in encryption order (R152). Decryption takes them in reverse (R154). -/
def roundIndices : List Nat := [0, 1, 2, 3, 4, 5, 6, 7, 8, 9]

/-- The halves at the start of a run (R152, R154). -/
def splitHalves (x : List Bool) : List Bool × List Bool := (x.take (fpeU x.length), x.drop (fpeU x.length))

/-- `FF1_ENC(K, X)` (R152). -/
def ff1Enc (ciph : Block → Block → Block) (k : Block) (x : List Bool) : List Bool :=
  let ab := roundIndices.foldl (fun ab i => encRound ciph k x.length i ab) (splitHalves x)
  ab.1 ++ ab.2

/-- `FF1_DEC(K, X)` (R154). -/
def ff1Dec (ciph : Block → Block → Block) (k : Block) (x : List Bool) : List Bool :=
  let ab := roundIndices.reverse.foldl (fun ab i => decRound ciph k x.length i ab) (splitHalves x)
  ab.1 ++ ab.2

/-- `FPE_ENC(K, buf)`; the empty buffer is left as it is (R152, R155). -/
def fpeEnc (ciph : Block → Block → Block) (k : Block) (buf : List Byte) : List Byte :=
  if buf.isEmpty then [] else bytesLe (ff1Enc ciph k (bitsLe buf))

/-- `FPE_DEC(K, buf)`; the empty buffer is left as it is (R154, R155). -/
def fpeDec (ciph : Block → Block → Block) (k : Block) (buf : List Byte) : List Byte :=
  if buf.isEmpty then [] else bytesLe (ff1Dec ciph k (bitsLe buf))

/-- The blocks a chain sends to the cipher, in order, from the chain value `y` (R149, spec/20_memory.md R63). -/
def chainQueries (ciph : Block → Block → Block) (k : Block) : Block → List Block → List Block
  | _, [] => []
  | y, x :: xs => (y ^^^ x) :: chainQueries ciph k (ciph k (y ^^^ x)) xs

/-- The blocks round `i` sends to the cipher, in order: the chain, then the expansion blocks (R150, spec/20_memory.md R63). -/
def roundQueries (ciph : Block → Block → Block) (k : Block) (n i : Nat) (h : List Bool) : List Block :=
  chainQueries ciph k 0#128 (blocksOf (pBytes n ++ qBytes n i h)) ++
  (expansionIndices n).map (fun j => roundPrf ciph k n i h ^^^ BitVec.ofNat 128 j)

/-- The blocks a sequence of encryption rounds sends to the cipher. -/
def encRoundsQueries (ciph : Block → Block → Block) (k : Block) (n : Nat) :
    List Nat → List Bool × List Bool → List Block
  | [], _ => []
  | i :: is, ab => roundQueries ciph k n i ab.2 ++ encRoundsQueries ciph k n is (encRound ciph k n i ab)

/-- The blocks a sequence of decryption rounds sends to the cipher. -/
def decRoundsQueries (ciph : Block → Block → Block) (k : Block) (n : Nat) :
    List Nat → List Bool × List Bool → List Block
  | [], _ => []
  | i :: is, ab => roundQueries ciph k n i ab.1 ++ decRoundsQueries ciph k n is (decRound ciph k n i ab)

/-- The blocks `FPE_ENC` sends to the cipher, in order: none for the empty buffer (R155, R161). -/
def fpeEncQueries (ciph : Block → Block → Block) (k : Block) (buf : List Byte) : List Block :=
  if buf.isEmpty then []
  else encRoundsQueries ciph k (bitsLe buf).length roundIndices (splitHalves (bitsLe buf))

/-- The blocks `FPE_DEC` sends to the cipher, in order: none for the empty buffer (R155, R161). -/
def fpeDecQueries (ciph : Block → Block → Block) (k : Block) (buf : List Byte) : List Block :=
  if buf.isEmpty then []
  else decRoundsQueries ciph k (bitsLe buf).length roundIndices.reverse (splitHalves (bitsLe buf))

end Sys2Proof.Machine
end

