-- ==== Sys2Proof/Machine/Txn.lean ====
section
/-! DEFINITION. The host's transactions and their replies (spec/20_memory.md R58), and which indices exist (R50, R51). -/

namespace Sys2Proof.Machine

/-- A transaction of R58. An index is a number; `Txn.wf` says which indices exist. -/
inductive Txn where
  | wrKey (i : Nat) (v : Byte)
  | rdKey (i : Nat)
  | wrKlen (v : Byte)
  | rdKlen
  | wrIlen (v : Len)
  | rdIlen
  | wrIbuf (j : Nat) (v : Byte)
  | rdIbuf (j : Nat)
  | wrCmd (w : Byte)
  | rdStatus
  | rdErrcode
  | rdOlen
  | rdObuf (j : Nat)
  | reset
  deriving DecidableEq, Repr

/-- A transaction that has not been performed yet. `early` says where the host's transaction falls
in the one total order of R60 when a command is in progress: before the command's Complete step if `early`, after
it if not. Only RD_STATUS and RESET can fall before it; every other transaction is held (R59). -/
structure HostReq where
  txn : Txn
  early : Bool
  deriving DecidableEq, Repr

/-- What a read returned to the host. -/
inductive Reply where
  | key (i : Nat) (v : Byte)
  | klen (v : Byte)
  | ilen (v : Len)
  | ibuf (j : Nat) (v : Byte)
  | status (v : Byte)
  | errcode (v : Byte)
  | olen (v : Len)
  | obuf (j : Nat) (v : Byte)
  deriving DecidableEq, Repr

/-- The transactions that are performed at once while BUSY = 1; all others are held (R58, R59). -/
def Txn.unheld : Txn → Bool
  | .rdStatus => true
  | .reset => true
  | .wrKey _ _ => false
  | .rdKey _ => false
  | .wrKlen _ => false
  | .rdKlen => false
  | .wrIlen _ => false
  | .rdIlen => false
  | .wrIbuf _ _ => false
  | .rdIbuf _ => false
  | .wrCmd _ => false
  | .rdErrcode => false
  | .rdOlen => false
  | .rdObuf _ => false

/-- The transactions the interface can express: the index of a byte lies in its space (R50, R51). -/
def Txn.wf : Txn → Bool
  | .wrKey i _ => decide (i < 16)
  | .rdKey i => decide (i < 16)
  | .wrIbuf j _ => decide (j < Config.capIn)
  | .rdIbuf j => decide (j < Config.capIn)
  | .rdObuf j => decide (j < Config.capOut)
  | .wrKlen _ => true
  | .rdKlen => true
  | .wrIlen _ => true
  | .rdIlen => true
  | .wrCmd _ => true
  | .rdStatus => true
  | .rdErrcode => true
  | .rdOlen => true
  | .reset => true

end Sys2Proof.Machine
end

