-- ==== Sys2Proof/Machine/State.lean ====
section
/-! DEFINITION. The state of BIT5-CORE as plain data (spec/10_state.md R20, R33 to R36), the reasons a step can stop, and the
state after reset (R39). -/

namespace Sys2Proof.Machine

/-- A byte memory: (index, byte) pairs, indices strictly rising. -/
abbrev Memory := List Host.Cell

/-- What stops the machine. -/
inductive Fault where
  /-- Raised by a command that reads its input (every command but GENKEY) in a state whose ILEN is above CAP_IN: IBUF has
  no such byte (R50). No run reaches such a state (R26). Safe: nothing is claimed past it. -/
  | ibufOverrun
  deriving DecidableEq, Repr

/-- What the machine does not accept. -/
inductive Refusal where
  /-- Raised by `exec` for an instruction that has no meaning yet. Safe. -/
  | notModelled (mnemonic : String)
  /-- Raised by a host access to KEY with an index of 16 or more, which is no transaction (R51). Safe. -/
  | keyIndex (i : Nat)
  /-- Raised by a host access to IBUF with an index of CAP_IN or more, which is no transaction (R51). Safe. -/
  | ibufIndex (j : Nat)
  /-- Raised by a host access to OBUF with an index of CAP_OUT or more, which is no transaction (R51). Safe. -/
  | obufIndex (j : Nat)
  deriving DecidableEq, Repr

/-- The state. The first nine fields are the architectural state of R20, the tenth the internal registers of R33 to R36;
the last five are the model's own: the host's side of the port and the counters of free values. -/
structure State where
  /-- STATUS: BUSY in bit 0, DONE in bit 1, ERR in bit 2 (R22). -/
  status : Byte
  /-- ERRCODE (R23). -/
  errcode : Byte
  /-- OPREG, the command word from Accept to Complete (R30). DESIGN CHOICE: it keeps the word until the next Accept or RESET (log
  entry 24). -/
  opreg : Byte
  /-- KEY[0] to KEY[15] (R24). -/
  key : Vector Byte 16
  /-- KLEN, the byte length of the key value (R25). -/
  klen : Byte
  /-- ILEN, the number of valid bytes in IBUF (R26). -/
  ilen : Len
  /-- OLEN, the number of valid bytes in OBUF (R27). -/
  olen : Len
  /-- IBUF (R28): the bytes that differ from what they held at reset. -/
  ibuf : Memory
  /-- OBUF (R28, R29): the bytes that have a value. -/
  obuf : Memory
  /-- The internal registers (R33 to R36). -/
  dp : Datapath
  /-- The host's transactions not yet performed, in the one total order in which they are performed (R58, R60). -/
  inbox : List HostReq
  /-- What the host's reads returned, oldest first. -/
  outbox : List Reply
  /-- How many free values have been taken. -/
  free : Nat
  /-- How many times the entropy port has been queried (R64). -/
  entropyDraws : Nat
  /-- Which unknown content the unwritten bytes of IBUF hold (R39). -/
  ibufSeed : Nat
  deriving DecidableEq, Repr

/-- The internal registers at reset. The spec leaves them unspecified (R39); DESIGN CHOICE, log entry 2. -/
def Datapath.reset : Datapath :=
  { stg := .none, rnd := 0, acc := 0#12, cnt := 0, halfA := [], halfB := [], blkP := 0#128, blkY := 0#128,
    blkR := 0#128, strS := [], numY := 0, wbuf := [], wlen := 0#32 }

/-- The state after reset (R39). OPREG is a DESIGN CHOICE, log entry 1; the five fields of the model's own start empty or at 0,
log entries 4, 6 and 11. -/
def State.reset : State :=
  { status := 0x00#8, errcode := 0x00#8, opreg := 0x00#8, key := Vector.replicate 16 0x00#8, klen := 0x00#8,
    ilen := 0#32, olen := 0#32, ibuf := [], obuf := [], dp := Datapath.reset, inbox := [], outbox := [], free := 0,
    entropyDraws := 0, ibufSeed := 0 }

end Sys2Proof.Machine
end

