-- ==== Sys2Proof/Machine/Flags.lean ====
section
/-! DEFINITION. The flags of STATUS (spec/10_state.md R22, R38) and the cause codes of ERRCODE (spec/60_exceptions.md R214).
No command computes any other flag: there are no condition codes and carries are discarded silently (R38). -/

namespace Sys2Proof.Machine

/-- STATUS.BUSY, bit 0. -/
def State.busy (s : State) : Bool := s.status.getLsbD 0

/-- STATUS.DONE, bit 1. -/
def State.done (s : State) : Bool := s.status.getLsbD 1

/-- STATUS.ERR, bit 2. -/
def State.err (s : State) : Bool := s.status.getLsbD 2

/-- STATUS with a command in progress: BUSY = 1, DONE = 0, ERR = 0 (spec/43_pipeline.md R196). -/
def statusBusy : Byte := 0x01#8

/-- STATUS after a successful completion: DONE = 1 (R215). -/
def statusDone : Byte := 0x02#8

/-- STATUS after an error completion: DONE = 1, ERR = 1 (R216). -/
def statusError : Byte := 0x06#8

/-- The values of PH (spec/10_state.md R33). -/
inductive Phase where
  | idle
  | busy
  deriving DecidableEq, Repr

/-- PH, which is equal to STATUS.BUSY (spec/10_state.md R33). -/
def State.phase (s : State) : Phase := if s.busy then .busy else .idle

/-- The causes of an error completion (R210, R214). -/
inductive Cause where
  /-- KeyError, cause 1: KLEN is not 16 (R211). -/
  | keyLength
  /-- KeyError, cause 2: the cipher rejects the key (R212). -/
  | keyRejected
  /-- IllegalCmd, cause 3: the command word names no operation (R213). -/
  | illegalCmd
  deriving DecidableEq, Repr

/-- The ERRCODE of a cause (R214). -/
def causeCode : Cause → Byte
  | .keyLength => 1#8
  | .keyRejected => 2#8
  | .illegalCmd => 3#8

/-- The ERRCODE of no error (R214). -/
def noError : Byte := 0#8

end Sys2Proof.Machine
end

