-- ==== Sys2Proof/Machine/Ops.lean ====
section
/-! DEFINITION. The named operations on memory and registers, and the steps every command shares: Accept (spec/43_pipeline.md
R196), successful completion (spec/60_exceptions.md R215), error completion (R216) and reset (spec/70_reset_and_hazards.md
R240). -/

namespace Sys2Proof.Machine

/-- The byte listed at an index. -/
def Memory.lookup : Memory → Nat → Option Byte
  | [], _ => none
  | c :: m, j => if c.1 = j then some c.2 else Memory.lookup m j

/-- The memory with an index no longer listed. -/
def Memory.erase (m : Memory) (j : Nat) : Memory := m.filter (fun c => decide (c.1 ≠ j))

/-- The memory with an index listed at a byte, in its place among rising indices. -/
def Memory.insert : Memory → Nat → Byte → Memory
  | [], j, v => [(j, v)]
  | c :: m, j, v =>
    if j < c.1 then (j, v) :: c :: m
    else if j = c.1 then (j, v) :: m
    else c :: Memory.insert m j v

/-- What a byte reads as, `dflt` giving the unlisted ones. -/
def Memory.read (dflt : Nat → Byte) (m : Memory) (j : Nat) : Byte := (Memory.lookup m j).getD (dflt j)

/-- The write of one byte: an index whose byte is what it reads as unlisted is not listed. -/
def Memory.write (dflt : Nat → Byte) (m : Memory) (j : Nat) (v : Byte) : Memory :=
  if v = dflt j then Memory.erase m j else Memory.insert m j v

/-- The canonical form: indices strictly rise, and no entry is what its index reads as unlisted. -/
abbrev Memory.wf (dflt : Nat → Byte) (m : Memory) : Prop :=
  m.Pairwise (fun c c' => c.1 < c'.1) ∧ ∀ c ∈ m, c.2 ≠ dflt c.1

/-- The memory that lists a byte string from an index on. -/
def Memory.ofBytesFrom : Nat → List Byte → Memory
  | _, [] => []
  | k, v :: vs => (k, v) :: Memory.ofBytesFrom (k + 1) vs

/-- `OBUF[0..n)` holding a byte string. -/
def Memory.ofBytes (out : List Byte) : Memory := Memory.ofBytesFrom 0 out

/-- What the unlisted bytes of IBUF read as (spec/10_state.md R39). -/
def State.ibufDefault (s : State) : Nat → Byte := Config.ibufInit s.ibufSeed

/-- `IBUF[j]` (spec/10_state.md R28). -/
def State.ibufByte (s : State) (j : Nat) : Byte := Memory.read s.ibufDefault s.ibuf j

/-- `IBUF[j] <- v` (spec/20_memory.md R58). -/
def State.writeIbuf (s : State) (j : Nat) (v : Byte) : State :=
  { s with ibuf := Memory.write s.ibufDefault s.ibuf j v }

/-- `OBUF[j]` where it has a value: only below OLEN (spec/10_state.md R29). -/
def State.obufByte (s : State) (j : Nat) : Option Byte :=
  if j < s.olen.toNat then Memory.lookup s.obuf j else none

/-- `KEY[i]`; the index is one of 0 to 15 (spec/10_state.md R24). -/
def State.keyByte (s : State) (i : Nat) : Byte := s.key[i]?.getD 0x00#8

/-- `KEY[i] <- v` (spec/20_memory.md R58). -/
def State.writeKey (s : State) (i : Nat) (v : Byte) : State := { s with key := s.key.setIfInBounds i v }

/-- `KLEN <- v` (spec/20_memory.md R58). -/
def State.writeKlen (s : State) (v : Byte) : State := { s with klen := v }

/-- `ILEN <- v`, dropped when `v` is above CAP_IN (spec/10_state.md R26). -/
def State.writeIlen (s : State) (v : Len) : State :=
  if v.toNat ≤ Config.capIn then { s with ilen := v } else s

/-- The value of a read goes to the host (spec/20_memory.md R58). -/
def State.reply (s : State) (r : Reply) : State := { s with outbox := s.outbox ++ [r] }

/-- The host's oldest request is taken; `rest` is what it leaves. -/
def State.takeRequest (s : State) (rest : List HostReq) : State := { s with inbox := rest }

/-- A free value has been taken. -/
def State.takeFree (s : State) : State := { s with free := s.free + 1 }

/-- The entropy port has been queried (spec/20_memory.md R64). -/
def State.takeEntropy (s : State) : State := { s with entropyDraws := s.entropyDraws + 1 }

/-- The registers within the sizes the spec gives them: halves of at most 4 * CAP_IN bits, S of at most d + 15 bytes and y of
d bytes for the largest buffer, WBUF of CAP_IN bytes (spec/10_state.md R35, R36). -/
def Datapath.clip (d : Datapath) : Datapath :=
  { d with
    halfA := d.halfA.take (4 * Config.capIn)
    halfB := d.halfB.take (4 * Config.capIn)
    strS := d.strS.take (fpeD (8 * Config.capIn) + 15)
    numY := d.numY % 256 ^ fpeD (8 * Config.capIn)
    wbuf := d.wbuf.take Config.capIn }

/-- The internal registers after a command: any values of their sizes (spec/10_state.md R37). -/
def leftoverDatapath (n : Nat) : Datapath := Datapath.clip (Config.freeDatapath n)

/-- The command is over, and the internal registers hold unspecified values (spec/10_state.md R37). -/
def State.releaseDatapath (s : State) : State := { s.takeFree with dp := leftoverDatapath s.free }

/-- Accept: the command word is taken and the command begins; OLEN and OBUF stay (spec/43_pipeline.md R196). It also clears
the error of the command before, which is all the "return" there is (spec/60_exceptions.md R219). -/
def State.acceptCmd (s : State) (w : Byte) : State :=
  { s with opreg := w, status := statusBusy, errcode := noError }

/-- Successful completion with the output `out` (spec/60_exceptions.md R215). DESIGN CHOICE: OPREG keeps the command word, as R215's
"Nothing else changes" reads, where spec/93_implementation_defined.md U4 allows any value (log entry 24). -/
def State.succeed (s : State) (out : List Byte) : State :=
  { s.releaseDatapath with
    obuf := Memory.ofBytes out
    olen := BitVec.ofNat 32 out.length
    errcode := noError
    status := statusDone }

/-- Error completion, the hardware's only "trap entry" (spec/60_exceptions.md R216). DESIGN CHOICE: OPREG keeps the command word, as
R216's "no effect other than the four writes above" reads, where spec/93_implementation_defined.md U4 allows any value (log entry 24). -/
def State.raiseError (s : State) (c : Cause) : State :=
  { s.releaseDatapath with
    obuf := []
    olen := 0#32
    errcode := causeCode c
    status := statusError }

/-- The reset event: the state of R39, at once, whatever the core was doing (spec/70_reset_and_hazards.md R240, R241, R243).
The host's side of the port stays, the counters of free values go on, and IBUF holds new unknown content. -/
def State.resetEvent (s : State) : State :=
  { State.reset with
    inbox := s.inbox
    outbox := s.outbox
    free := s.free
    entropyDraws := s.entropyDraws
    ibufSeed := s.ibufSeed + 1 }

end Sys2Proof.Machine
end

