-- ==== Sys2Proof/Machine/Operands.lean ====
section
/-! DEFINITION. The implicit operands of the commands (spec/30_encoding.md R77): the input bytes, the key and the draw. -/

namespace Sys2Proof.Machine

/-- `IBUF[0..ILEN)` (spec/10_state.md R28). -/
def State.inputBytes (s : State) : List Byte := (List.range s.ilen.toNat).map s.ibufByte

/-- The input operand: what a command does with `IBUF[0..ILEN)`. IBUF has CAP_IN bytes and no more; ILEN is never above that
(spec/10_state.md R26). -/
def withInput (s : State) (f : List Byte → Host.Outcome State Fault Refusal) : Host.Outcome State Fault Refusal :=
  if s.ilen.toNat ≤ Config.capIn then f s.inputBytes else .fault .ibufOverrun

/-- `K`, the byte string KEY[0] to KEY[15], as a block (spec/42_fpe_feistel.md R142). -/
def State.keyBlock (s : State) : Block := blockOf s.key.toList

/-- The keyed commands: ENCRYPT, DECRYPT, and RUNENC and RUNDEC with K = 1 (spec/42_fpe_feistel.md R168). -/
def keyedCommand : Instr → Bool
  | .encode => false
  | .decode => false
  | .encrypt => true
  | .decrypt => true
  | .runenc k => k
  | .rundec k => k
  | .genkey => false

/-- `KEYCHK()` (spec/42_fpe_feistel.md R168): the error it raises, if it raises one. The length comes first
(spec/60_exceptions.md R217). -/
def keyCheck (s : State) : Option Cause :=
  if s.klen ≠ 16#8 then some .keyLength
  else if Config.ciphKeyOk s.keyBlock then none
  else some .keyRejected

/-- The error a command ends in, if it ends in one: only a keyed command does, and only by its key
(spec/43_pipeline.md R201, spec/60_exceptions.md R225). -/
def commandError (i : Instr) (s : State) : Option Cause := if keyedCommand i then keyCheck s else none

/-- The key operand: what a command does with a key that passes `KEYCHK`, which comes before anything else
(spec/42_fpe_feistel.md R168). -/
def withKey (s : State) (f : Block → Host.Outcome State Fault Refusal) : Host.Outcome State Fault Refusal :=
  match keyCheck s with
  | some c => .next (s.raiseError c)
  | none => f s.keyBlock

/-- The draw operand: `DRAW16()`, sixteen bytes of the entropy port (spec/20_memory.md R64). -/
def State.draw16 (s : State) : List Byte := blockBytes (Config.entropy s.entropyDraws)

end Sys2Proof.Machine
end

