-- ==== Sys2Proof/Machine/Codec.lean ====
section
/-! DEFINITION. ENCODE and DECODE (spec/41_gearbox_codec.md R125, R126). -/

namespace Sys2Proof.Machine

/-- ENCODE (R125): OBUF holds `ENC` of the input characters. KEY and KLEN are not read. -/
def execEncode (s : State) : Host.Outcome State Fault Refusal :=
  withInput s fun t => .next (s.succeed (enc t))

/-- DECODE (R126): OBUF holds `DEC` of the input bytes. KEY and KLEN are not read. -/
def execDecode (s : State) : Host.Outcome State Fault Refusal :=
  withInput s fun b => .next (s.succeed (dec Config.unkChar b))

end Sys2Proof.Machine
end

