-- ==== Sys2Proof/Machine/Fpe.lean ====
section
/-! DEFINITION. ENCRYPT, DECRYPT and GENKEY (spec/42_fpe_feistel.md R165 to R167). -/

namespace Sys2Proof.Machine

/-- ENCRYPT (R165): `KEYCHK`, then OBUF holds `FPE_ENC` of the input bytes under KEY. -/
def execEncrypt (s : State) : Host.Outcome State Fault Refusal :=
  withKey s fun k => withInput s fun b => .next (s.succeed (fpeEnc Config.ciph k b))

/-- DECRYPT (R166): `KEYCHK`, then OBUF holds `FPE_DEC` of the input bytes under KEY. -/
def execDecrypt (s : State) : Host.Outcome State Fault Refusal :=
  withKey s fun k => withInput s fun b => .next (s.succeed (fpeDec Config.ciph k b))

/-- GENKEY (R167): OBUF holds sixteen drawn bytes. KEY and KLEN are neither read nor written. -/
def execGenkey (s : State) : Host.Outcome State Fault Refusal :=
  .next (s.takeEntropy.succeed s.draw16)

end Sys2Proof.Machine
end

