-- ==== Sys2Proof/Machine/Pipeline.lean ====
section
/-! DEFINITION. RUNENC and RUNDEC (spec/43_pipeline.md R190 to R194), and what an illegal command word does
(spec/60_exceptions.md R213). -/

namespace Sys2Proof.Machine

/-- The optional key: checked and used when K = 1, not read when K = 0 (R190). -/
def withOptionalKey (k : Bool) (s : State) (f : Option Block → Host.Outcome State Fault Refusal) :
    Host.Outcome State Fault Refusal :=
  if k then withKey s (fun key => f (some key)) else f none

/-- `RUN_ENC` after the key check (R191). -/
def runEnc (ciph : Block → Block → Block) (key : Option Block) (t : List Byte) : List Byte :=
  match key with
  | some k => fpeEnc ciph k (enc t)
  | none => enc t

/-- `RUN_DEC` after the key check (R192). -/
def runDec (ciph : Block → Block → Block) (unk : Byte) (key : Option Block) (b : List Byte) : List Byte :=
  match key with
  | some k => dec unk (fpeDec ciph k b)
  | none => dec unk b

/-- RUNENC (R193). -/
def execRunenc (k : Bool) (s : State) : Host.Outcome State Fault Refusal :=
  withOptionalKey k s fun key => withInput s fun t =>
    .next (s.succeed (runEnc Config.ciph key t))

/-- RUNDEC (R194). -/
def execRundec (k : Bool) (s : State) : Host.Outcome State Fault Refusal :=
  withOptionalKey k s fun key => withInput s fun b =>
    .next (s.succeed (runDec Config.ciph Config.unkChar key b))

/-- The completion of a command whose word is illegal (spec/60_exceptions.md R213). -/
def execIllegal (s : State) : Host.Outcome State Fault Refusal := .next (s.raiseError .illegalCmd)

end Sys2Proof.Machine
end

