-- ==== Sys2Proof/Machine/Dispatch.lean ====
section
/-! DEFINITION. `EXEC`, the dispatch of the Complete step on the commands (spec/43_pipeline.md R198). -/

namespace Sys2Proof.Machine

def exec (i : Instr) (s : State) : Host.Outcome State Fault Refusal :=
  match i with
  | .encode => Sys2Proof.Machine.execEncode s
  | .decode => Sys2Proof.Machine.execDecode s
  | .encrypt => Sys2Proof.Machine.execEncrypt s
  | .decrypt => Sys2Proof.Machine.execDecrypt s
  | .runenc k => Sys2Proof.Machine.execRunenc k s
  | .rundec k => Sys2Proof.Machine.execRundec k s
  | .genkey => Sys2Proof.Machine.execGenkey s

end Sys2Proof.Machine
end

