-- ==== Sys2Proof/Machine/HostPort.lean ====
section
/-! DEFINITION. The host port: the effect of every transaction (spec/20_memory.md R58) and which of them is next (R59, R60). -/

namespace Sys2Proof.Machine

/-- `WR_KEY(i, v)`. -/
def txnWrKey (i : Nat) (v : Byte) (s : State) : Host.Outcome State Fault Refusal :=
  if (Txn.wrKey i v).wf then .next (s.writeKey i v) else .refused (.keyIndex i)

/-- `RD_KEY(i)`. -/
def txnRdKey (i : Nat) (s : State) : Host.Outcome State Fault Refusal :=
  if (Txn.rdKey i).wf then .next (s.reply (.key i (s.keyByte i))) else .refused (.keyIndex i)

/-- `WR_IBUF(j, v)`. -/
def txnWrIbuf (j : Nat) (v : Byte) (s : State) : Host.Outcome State Fault Refusal :=
  if (Txn.wrIbuf j v).wf then .next (s.writeIbuf j v) else .refused (.ibufIndex j)

/-- `RD_IBUF(j)`. -/
def txnRdIbuf (j : Nat) (s : State) : Host.Outcome State Fault Refusal :=
  if (Txn.rdIbuf j).wf then .next (s.reply (.ibuf j (s.ibufByte j))) else .refused (.ibufIndex j)

/-- `RD_OBUF(j)`: the output byte below OLEN, a fresh free value at or beyond it (spec/10_state.md R29). -/
def txnRdObuf (j : Nat) (s : State) : Host.Outcome State Fault Refusal :=
  if (Txn.rdObuf j).wf then
    match s.obufByte j with
    | some v => .next (s.reply (.obuf j v))
    | none => .next (s.takeFree.reply (.obuf j (Config.freeByte s.free)))
  else .refused (.obufIndex j)

/-- The effect of a transaction when it is performed. `WR_CMD` is the Accept step, `RESET` the reset event. -/
def performTxn (t : Txn) (s : State) : Host.Outcome State Fault Refusal :=
  match t with
  | .wrKey i v => txnWrKey i v s
  | .rdKey i => txnRdKey i s
  | .wrKlen v => .next (s.writeKlen v)
  | .rdKlen => .next (s.reply (.klen s.klen))
  | .wrIlen v => .next (s.writeIlen v)
  | .rdIlen => .next (s.reply (.ilen s.ilen))
  | .wrIbuf j v => txnWrIbuf j v s
  | .rdIbuf j => txnRdIbuf j s
  | .wrCmd w => .next (s.acceptCmd w)
  | .rdStatus => .next (s.reply (.status s.status))
  | .rdErrcode => .next (s.reply (.errcode s.errcode))
  | .rdOlen => .next (s.reply (.olen s.olen))
  | .rdObuf j => txnRdObuf j s
  | .reset => .next s.resetEvent

/-- The transaction performed at this step, with the requests left after it, or none when the step is the core's. While
BUSY = 1 only RD_STATUS and RESET are performed, and only when they fall before Complete; every other is held (R59). -/
def hostTurn (s : State) : Option (Txn × List HostReq) :=
  match s.inbox with
  | [] => none
  | r :: rest => if s.busy && !(r.early && r.txn.unheld) then none else some (r.txn, rest)

end Sys2Proof.Machine
end

