-- ==== Sys2Proof/Machine/Step.lean ====
section
/-! DEFINITION. The step of the machine: one host transaction or one Complete step (spec/20_memory.md R60,
spec/43_pipeline.md R196, R197). -/

namespace Sys2Proof.Machine

/-- Complete: the command in OPREG takes its effect (spec/43_pipeline.md R197, R198). -/
def complete (s : State) : Host.Outcome State Fault Refusal :=
  match decodeCmd s.opreg with
  | .ok i => exec i s
  | .error _ => execIllegal s

/-- One step: the host's transaction when it is the host's turn, else Complete when a command is in progress, else nothing:
an idle core holds its state (spec/60_exceptions.md R224). -/
def step (s : State) : Host.Outcome State Fault Refusal :=
  match hostTurn s with
  | some (t, rest) => performTxn t (s.takeRequest rest)
  | none => if s.busy then complete s else .next s

/-- `s` just after the Accept of the command word `w` with no host transaction waiting, so that the next step completes that
very command. A command word is 8 bits (spec/30_encoding.md R76). -/
def State.withFetchWord (s : State) (nbits w : Nat) : State :=
  (s.takeRequest []).acceptCmd (BitVec.ofNat 8 (w % 2 ^ nbits))

end Sys2Proof.Machine
end

