-- ==== Sys2Proof/Machine/Queries.lean ====
section
/-! DEFINITION. What a command asks of the two oracle ports (spec/20_memory.md R62 to R64). -/

namespace Sys2Proof.Machine

/-- The blocks a command sends to the cipher, in order, if its key is good (R63). -/
def cipherBlocks (i : Instr) (s : State) : List Block :=
  match i with
  | .encode => []
  | .decode => []
  | .encrypt => fpeEncQueries Config.ciph s.keyBlock s.inputBytes
  | .decrypt => fpeDecQueries Config.ciph s.keyBlock s.inputBytes
  | .runenc k => if k then fpeEncQueries Config.ciph s.keyBlock (enc s.inputBytes) else []
  | .rundec k => if k then fpeDecQueries Config.ciph s.keyBlock s.inputBytes else []
  | .genkey => []

/-- The queries of a command on the port CIPH, in order, each with the key it carries: none for a command that ends in an
error (R62, R63). -/
def cmdQueries (i : Instr) (s : State) : List (Block × Block) :=
  match commandError i s with
  | some _ => []
  | none => (cipherBlocks i s).map (fun x => (s.keyBlock, x))

/-- The number of queries of one run on `L` bytes (spec/42_fpe_feistel.md R161). -/
def queryCount (l : Nat) : Nat :=
  if l = 0 then 0
  else 10 * (1 + (fpeZ (8 * l) + 1 + fpeB (8 * l)) / 16 + (ceilDiv (fpeD (8 * l)) 16 - 1))

/-- The number of queries of a command on the port ENTROPY: one for GENKEY, none for any other (R64). -/
def entropyQueries : Instr → Nat
  | .encode => 0
  | .decode => 0
  | .encrypt => 0
  | .decrypt => 0
  | .runenc _ => 0
  | .rundec _ => 0
  | .genkey => 1

end Sys2Proof.Machine
end

