-- ==== Sys2Proof/Machine/Script.lean ====
section
/-! DEFINITION. The host script notation as host transactions (spec/30_encoding.md R80 to R82). It is notation only: nothing
in the hardware parses it. -/

namespace Sys2Proof.Machine

/-- The mnemonics and their words (R82). -/
def scriptWords : List (String × Byte) :=
  [("ENCODE", 0x00#8), ("DECODE", 0x01#8), ("ENCRYPT", 0x02#8), ("DECRYPT", 0x03#8), ("RUNENC", 0x04#8),
   ("RUNENC.K", 0x0C#8), ("RUNDEC", 0x05#8), ("RUNDEC.K", 0x0D#8), ("GENKEY", 0x06#8)]

/-- The mnemonic of a command in a script: the suffix `.K` sets bit 3 (R82). -/
def scriptMnemonic (i : Instr) : String := if keyFlag i then mnemonicOf i ++ ".K" else mnemonicOf i

/-- `CMD 0xNN` (R80). -/
def lineCmdWord (w : Byte) : List Txn := [.wrCmd w]

/-- `CMD <mnemonic>` (R80). -/
def lineCmd (i : Instr) : List Txn := lineCmdWord (encodeWord i)

/-- `WRKEY i, v` for the bytes of a list, from the index `i` on (R80). -/
def keyWrites : Nat → List Byte → List Txn
  | _, [] => []
  | i, v :: vs => .wrKey i v :: keyWrites (i + 1) vs

/-- `WRIBUF j, v` for the bytes of a list, from the index `j` on (R80). -/
def ibufWrites : Nat → List Byte → List Txn
  | _, [] => []
  | j, v :: vs => .wrIbuf j v :: ibufWrites (j + 1) vs

/-- `KEY b0 b1 ...`: at most 16 bytes are written, and KLEN is the number of bytes given, at most 255 (R81). -/
def lineKey (bs : List Byte) : List Txn := keyWrites 0 (bs.take 16) ++ [.wrKlen (BitVec.ofNat 8 bs.length)]

/-- `IN b0 b1 ...` (R81). -/
def lineIn (bs : List Byte) : List Txn := ibufWrites 0 bs ++ [.wrIlen (BitVec.ofNat 32 bs.length)]

/-- `WAIT`, where the host's `k`-th read of STATUS is the first with BUSY = 0 (R81). -/
def lineWait (k : Nat) : List Txn := List.replicate k .rdStatus

/-- The test that ends `WAIT` (R81). -/
def waitOver (v : Byte) : Bool := !v.getLsbD 0

/-- `OUT`, where the read of OLEN gives `n` (R81). -/
def lineOut (n : Nat) : List Txn := .rdOlen :: (List.range n).map Txn.rdObuf

/-- `MOVE`, where the reads give the bytes `out` (R81). -/
def lineMove (out : List Byte) : List Txn := lineOut out.length ++ lineIn out

/-- The bytes that the replies to an `OUT` carry (R81). -/
def outBytes : List Reply → List Byte
  | [] => []
  | .obuf _ v :: rs => v :: outBytes rs
  | .key _ _ :: rs => outBytes rs
  | .klen _ :: rs => outBytes rs
  | .ilen _ :: rs => outBytes rs
  | .ibuf _ _ :: rs => outBytes rs
  | .status _ :: rs => outBytes rs
  | .errcode _ :: rs => outBytes rs
  | .olen _ :: rs => outBytes rs

/-- `EXPECT STATUS v`, on the replies so far (R81). -/
def expectStatus (v : Byte) (rs : List Reply) : Bool := decide (rs.getLast? = some (.status v))

/-- `EXPECT ERR v`, on the replies so far (R81). -/
def expectErr (v : Byte) (rs : List Reply) : Bool := decide (rs.getLast? = some (.errcode v))

/-- `EXPECT OUT b0 b1 ...`, on the replies of the `OUT` (R81). -/
def expectOut (bs : List Byte) (rs : List Reply) : Bool := decide (outBytes rs = bs)

/-- A script's transactions as the host's requests. No line of a script is issued while a command is in progress but
`RDSTATUS` and `RESET`, for which `early` says so. -/
def scriptRequests (early : Bool) (ts : List Txn) : List HostReq := ts.map (fun t => ⟨t, early⟩)

end Sys2Proof.Machine
end

