-- ==== Sys2Proof/Machine/Sequencer.lean ====
section
/-! DEFINITION. The reference realisation of a command on the internal registers: the packer and unpacker datapaths
(spec/41_gearbox_codec.md R119, R120), the Feistel engine's registers (spec/10_state.md R35) and the stages of the sequencer
(spec/43_pipeline.md R195). The functions of R111 and R114 govern; `step` does not use this file, and the obligations say
that it computes what the commands compute. -/

namespace Sys2Proof.Machine

/-- `ACC[n-1:0]`: the `n` low bits, the others 0. -/
def lowBits (acc : BitVec 12) (n : Nat) : BitVec 12 := acc &&& BitVec.ofNat 12 (2 ^ n - 1)

/-- ACC and CNT at the start of a gearbox stage (spec/10_state.md R34). -/
def Datapath.clearGearbox (d : Datapath) (stg : Stage) : Datapath := { d with stg := stg, acc := 0#12, cnt := 0 }

/-- One code through the packer (R119). -/
def packCode (d : Datapath) (k : Code) : Datapath × List Byte :=
  let acc := (d.acc <<< 5) ||| k.setWidth 12
  let cnt := d.cnt.val + 5
  if 8 ≤ cnt then
    ({ d with acc := lowBits acc (cnt - 8), cnt := Fin.ofNat 13 (cnt - 8) }, [(acc >>> (cnt - 8)).setWidth 8])
  else ({ d with acc := acc, cnt := Fin.ofNat 13 cnt }, [])

/-- The packer after the last code (R119). -/
def packFlush (d : Datapath) : List Byte :=
  if 0 < d.cnt.val then [(d.acc <<< (8 - d.cnt.val)).setWidth 8] else []

/-- The packer on a code sequence (R119). -/
def packCodes : Datapath → List Code → Datapath × List Byte
  | d, [] => (d, packFlush d)
  | d, k :: ks =>
    let now := packCode d k
    let later := packCodes now.1 ks
    (later.1, now.2 ++ later.2)

/-- The `while CNT >= 5` loop of the unpacker (R120), at most as often as the first argument says. -/
def unpackDrain : Nat → Datapath → Datapath × List Code
  | 0, d => (d, [])
  | fuel + 1, d =>
    if 5 ≤ d.cnt.val then
      let cnt := d.cnt.val - 5
      let later := unpackDrain fuel { d with acc := lowBits d.acc cnt, cnt := Fin.ofNat 13 cnt }
      (later.1, (d.acc >>> cnt).setWidth 5 :: later.2)
    else (d, [])

/-- One byte through the unpacker: CNT is at most 12 after the byte, so at most two codes leave (R120). -/
def unpackByte (d : Datapath) (v : Byte) : Datapath × List Code :=
  unpackDrain 2 { d with acc := (d.acc <<< 8) ||| v.setWidth 12, cnt := Fin.ofNat 13 (d.cnt.val + 8) }

/-- The unpacker on a byte sequence; the bits left in ACC at the end are discarded (R120). -/
def unpackBytes : Datapath → List Byte → Datapath × List Code
  | d, [] => (d, [])
  | d, v :: vs =>
    let now := unpackByte d v
    let later := unpackBytes now.1 vs
    (later.1, now.2 ++ later.2)

/-- What the registers of an FPE stage are loaded with at its start (spec/10_state.md R35). -/
def loadHalves (d : Datapath) (stg : Stage) (x : List Bool) : Datapath :=
  { d with
    stg := stg
    halfA := (splitHalves x).1
    halfB := (splitHalves x).2
    blkP := blockOf (pBytes x.length) }

/-- The registers RND, Y, R, S and y of one round on the half `h`: the chain runs over the block P and then over the blocks of
Q (spec/42_fpe_feistel.md R149, R150). -/
def roundRegs (ciph : Block → Block → Block) (k : Block) (n i : Nat) (h : List Bool) (d : Datapath) : Datapath :=
  let y := (blocksOf (qBytes n i h)).foldl (fun y x => ciph k (y ^^^ x)) (ciph k (0#128 ^^^ d.blkP))
  let str := expand ciph k n y
  { d with rnd := Fin.ofNat 10 i, blkY := y, blkR := y, strS := str, numY := numB (str.take (fpeD n)) }

/-- An encryption round on the registers A and B (spec/42_fpe_feistel.md R151). -/
def encRoundRegs (ciph : Block → Block → Block) (k : Block) (n i : Nat) (d : Datapath) : Datapath :=
  let d := roundRegs ciph k n i d.halfB d
  let m := roundLen n i
  { d with halfA := d.halfB, halfB := str2 m ((num2 d.halfA + d.numY) % 2 ^ m) }

/-- A decryption round on the registers A and B (spec/42_fpe_feistel.md R153). -/
def decRoundRegs (ciph : Block → Block → Block) (k : Block) (n i : Nat) (d : Datapath) : Datapath :=
  let d := roundRegs ciph k n i d.halfA d
  let m := roundLen n i
  { d with halfA := str2 m (subMod (num2 d.halfB) d.numY m), halfB := d.halfA }

/-- An FPE stage with the given round order and round; the empty buffer passes unchanged (spec/42_fpe_feistel.md R155). -/
def runFpeStage (stg : Stage) (order : List Nat) (round : Nat → Nat → Datapath → Datapath) (d : Datapath)
    (buf : List Byte) : Datapath × List Byte :=
  if buf.isEmpty then ({ d with stg := stg }, [])
  else
    let x := bitsLe buf
    let d := order.foldl (fun d i => round x.length i d) (loadHalves d stg x)
    (d, bytesLe (d.halfA ++ d.halfB))

/-- What the stages take from outside the registers: the cipher, the key, UNK_CHAR and the draw. -/
structure StageInputs where
  ciph : Block → Block → Block
  key : Block
  unk : Byte
  draw : List Byte

/-- One stage: its input buffer in, its output buffer out (spec/43_pipeline.md R195). -/
def runStage (inp : StageInputs) (stg : Stage) (d : Datapath) (buf : List Byte) : Datapath × List Byte :=
  match stg with
  | .none => (d, buf)
  | .mapPack => packCodes (d.clearGearbox .mapPack) (buf.map s2c)
  | .unpackMap =>
    let out := unpackBytes (d.clearGearbox .unpackMap) buf
    (out.1, out.2.map (c2s inp.unk))
  | .fpeEnc => runFpeStage .fpeEnc roundIndices (encRoundRegs inp.ciph inp.key) d buf
  | .fpeDec => runFpeStage .fpeDec roundIndices.reverse (decRoundRegs inp.ciph inp.key) d buf
  | .gen => ({ d with stg := .gen }, inp.draw)

/-- The stages of a command, in order (spec/43_pipeline.md R195). -/
def stagesOf : Instr → List Stage
  | .encode => [.mapPack]
  | .decode => [.unpackMap]
  | .encrypt => [.fpeEnc]
  | .decrypt => [.fpeDec]
  | .runenc k => if k then [.mapPack, .fpeEnc] else [.mapPack]
  | .rundec k => if k then [.fpeDec, .unpackMap] else [.unpackMap]
  | .genkey => [.gen]

/-- A sequence of stages; between two of them WBUF holds the bytes and WLEN their number (spec/10_state.md R36). -/
def runStages (inp : StageInputs) : List Stage → Datapath → List Byte → Datapath × List Byte
  | [], d, buf => (d, buf)
  | [stg], d, buf => runStage inp stg d buf
  | stg :: stg' :: rest, d, buf =>
    let r := runStage inp stg d buf
    let d' := { r.1 with wbuf := r.2, wlen := BitVec.ofNat 32 r.2.length }
    runStages inp (stg' :: rest) d' (d'.wbuf.take d'.wlen.toNat)

/-- What the stages of a command in the state `s` take from outside the registers. -/
def State.stageInputs (s : State) : StageInputs :=
  { ciph := Config.ciph, key := s.keyBlock, unk := Config.unkChar, draw := s.draw16 }

/-- The registers and the output bytes after the stages of a command that raises no error. -/
def sequencerRun (i : Instr) (s : State) : Datapath × List Byte :=
  runStages s.stageInputs (stagesOf i) s.dp s.inputBytes

end Sys2Proof.Machine
end

