-- ==== Sys2Proof/Safety.lean ====
section
/-! DEFINITION. What a legal state of BIT5-CORE is: the invariant the spec's rules give the registers and buffers. -/

namespace Sys2Proof.Machine

/-- IBUF is in canonical form and lists no byte that does not exist (spec/20_memory.md R50). -/
def State.IbufOk (s : State) : Prop :=
  Memory.wf s.ibufDefault s.ibuf ∧ ∀ c ∈ s.ibuf, c.1 < Config.capIn

/-- OBUF lists exactly the bytes below OLEN, and OLEN is at most CAP_OUT (spec/10_state.md R27, R29). -/
def State.ObufOk (s : State) : Prop :=
  s.obuf.map (fun c => c.1) = List.range s.olen.toNat ∧ s.olen.toNat ≤ Config.capOut

/-- STATUS and ERRCODE hold one of the combinations of spec/10_state.md R22 and R23: no command since reset, busy, done with
success, or done with an error, its cause in ERRCODE and no output. -/
def State.FlagsOk (s : State) : Prop :=
  (s.status = 0x00#8 ∧ s.errcode = 0#8 ∧ s.olen = 0#32) ∨
  (s.status = 0x01#8 ∧ s.errcode = 0#8) ∨
  (s.status = 0x02#8 ∧ s.errcode = 0#8) ∨
  (s.status = 0x06#8 ∧ (s.errcode = 1#8 ∨ s.errcode = 2#8 ∨ s.errcode = 3#8) ∧ s.olen = 0#32)

/-- The internal registers are within the sizes of spec/10_state.md R35 and R36. -/
def State.DatapathOk (s : State) : Prop :=
  s.dp.halfA.length ≤ 4 * Config.capIn ∧ s.dp.halfB.length ≤ 4 * Config.capIn ∧
  s.dp.strS.length ≤ fpeD (8 * Config.capIn) + 15 ∧ s.dp.numY < 256 ^ fpeD (8 * Config.capIn) ∧
  s.dp.wbuf.length ≤ Config.capIn

/-- A legal state. -/
structure State.Inv (s : State) : Prop where
  ilen : s.ilen.toNat ≤ Config.capIn
  ibuf : s.IbufOk
  obuf : s.ObufOk
  flags : s.FlagsOk
  datapath : s.DatapathOk

/-- The bytes the rule of a command puts into OBUF when the command succeeds (spec/43_pipeline.md R198). -/
def commandOutput (i : Instr) (s : State) : List Byte :=
  match i with
  | .encode => enc s.inputBytes
  | .decode => dec Config.unkChar s.inputBytes
  | .encrypt => fpeEnc Config.ciph s.keyBlock s.inputBytes
  | .decrypt => fpeDec Config.ciph s.keyBlock s.inputBytes
  | .runenc k => if k then fpeEnc Config.ciph s.keyBlock (enc s.inputBytes) else enc s.inputBytes
  | .rundec k =>
    if k then dec Config.unkChar (fpeDec Config.ciph s.keyBlock s.inputBytes) else dec Config.unkChar s.inputBytes
  | .genkey => s.draw16

/-- The state with the entropy queries of a command counted (spec/20_memory.md R64). -/
def State.afterDraws (i : Instr) (s : State) : State := { s with entropyDraws := s.entropyDraws + entropyQueries i }

/-- OLEN is the length of a byte string and OBUF holds it; every byte from OLEN on is unspecified (spec/10_state.md R29). -/
def State.Delivers (t : State) (out : List Byte) : Prop :=
  t.olen.toNat = out.length ∧ ∀ j, t.obufByte j = out[j]?

/-- DONE without ERR, and no cause in ERRCODE (spec/60_exceptions.md R215). -/
def State.Succeeded (t : State) : Prop := t.status = 0x02#8 ∧ t.errcode = 0#8

/-- What an error completion with a cause code leaves: DONE and ERR, the cause in ERRCODE, and no output
(spec/60_exceptions.md R216). -/
def State.Failed (t : State) (code : Byte) : Prop :=
  t.status = 0x06#8 ∧ t.errcode = code ∧ t.olen = 0#32 ∧ ∀ j, t.obufByte j = none

/-- What no command changes: KEY, KLEN, ILEN, every byte of IBUF (spec/43_pipeline.md R198), and the host's side of the port; and
OPREG, which DESIGN CHOICE (log entry 24) keeps its word past Complete (R215 and R216 against U4 of
spec/93_implementation_defined.md). -/
def State.CommandFrame (s t : State) : Prop :=
  t.key = s.key ∧ t.klen = s.klen ∧ t.ilen = s.ilen ∧ (∀ j, t.ibufByte j = s.ibufByte j) ∧ t.opreg = s.opreg ∧
  t.inbox = s.inbox ∧ t.outbox = s.outbox

end Sys2Proof.Machine
end

