-- ==== Sys2Proof/WellFormed.lean ====
section
/-! DEFINITION. Well-formedness of a command as syntax (spec/30_encoding.md R70 to R74). -/

namespace Sys2Proof

/-- A command word is legal when some row of the table of R74 selects it. -/
def wordLegal (w : Byte) : Bool := opcodeRows.any (·.selects w)

/-- A command is well-formed when its word is legal. The operand K is one bit and every value of it is allowed (R72), so
no term of `Instr` fails this; the checks that a term can fail are those on command words (`wordLegal`, R75) and on
the indices of host transactions (`Machine.Txn.wf`, R51). -/
def Instr.wf (i : Instr) : Bool := wordLegal (encodeWord i)

end Sys2Proof
end

