-- ==== Sys2Proof/Certificates/Slice0/Obligations.lean ====
section
/-! DEFINITION. The statements for the provers, from the numbered rules of spec/. Every unspecified value of the spec (an OBUF byte
at or beyond OLEN, an IBUF byte not written since reset, the entropy draw, CIPH, CIPH_KEY_OK, UNK_CHAR, CAP_IN) is a constant with
no body, so each statement holds whatever it is. -/

open Sys2Proof Sys2Proof.Machine

/-! ## Encoding -/

/-- R74: the nine legal words and their commands, no other word, and the match and mask rows. -/
def Obligations.CommandWordsDecodeAsTabled : Prop :=
  (∀ (w : Byte) (i : Instr), decodeCmd w = .ok i ↔
    (w, i) ∈ [(0x00#8, Instr.encode), (0x01#8, .decode), (0x02#8, .encrypt), (0x03#8, .decrypt),
      (0x04#8, .runenc false), (0x0C#8, .runenc true), (0x05#8, .rundec false), (0x0D#8, .rundec true),
      (0x06#8, .genkey)]) ∧
  (∀ (w : Byte) (r : OpcodeRow), r ∈ opcodeRows →
    (r.selects w = true ↔ ∃ i, decodeCmd w = .ok i ∧ mnemonicOf i = r.mnemonic)) ∧
  ((List.range 256).filter (fun n => wordLegal (BitVec.ofNat 8 n))).length = 9

/-- R70, R74: encoding a command and decoding its word gives the command back, a word that decodes is the word of its command,
and the word carries the fields Z = 0, K and OP. -/
def Obligations.DecodeAndEncodeAgree : Prop :=
  (∀ i : Instr, decodeCmd (encodeWord i) = .ok i ∧ i.wf = true) ∧
  (∀ (w : Byte) (i : Instr), decodeCmd w = .ok i →
    encodeWord i = w ∧ fieldZ w = 0#4 ∧ fieldK w = keyFlag i ∧ fieldOp w = opNumber i)

/-- R82: the mnemonics of a script and the words they stand for; no other mnemonic exists. -/
def Obligations.ScriptMnemonicsNameTheLegalWords : Prop :=
  (∀ (m : String) (w : Byte), (∃ i, scriptMnemonic i = m ∧ encodeWord i = w) ↔
    (m, w) ∈ [("ENCODE", 0x00#8), ("DECODE", 0x01#8), ("ENCRYPT", 0x02#8), ("DECRYPT", 0x03#8), ("RUNENC", 0x04#8),
      ("RUNENC.K", 0x0C#8), ("RUNDEC", 0x05#8), ("RUNDEC.K", 0x0D#8), ("GENKEY", 0x06#8)]) ∧
  (∀ (m : String) (w : Byte), (∃ i, scriptMnemonic i = m ∧ encodeWord i = w) ↔ (m, w) ∈ scriptWords) ∧
  encodeWord (.runenc true) = encodeWord (.runenc false) ||| 0x08#8 ∧
  encodeWord (.rundec true) = encodeWord (.rundec false) ||| 0x08#8

/-! ## The step -/

/-- R197, R198: while a command is in progress and the host has no turn, the step is the command of OPREG's word. -/
def Obligations.StepRunsTheAcceptedCommand : Prop :=
  ∀ (s : State) (i : Instr), s.busy = true → hostTurn s = none → decodeCmd s.opreg = .ok i → step s = exec i s

/-- R213, R216, R217: an illegal word completes with cause 3, whatever the key registers hold, and changes no operand.
That OPREG keeps its word after Complete is the model's choice (log entry 24). -/
def Obligations.IllegalWordEndsInCauseThree : Prop :=
  ∀ (s : State) (e : IllegalWord), s.busy = true → hostTurn s = none → decodeCmd s.opreg = .error e →
    ∃ t, step s = .next t ∧ t.Failed 3#8 ∧ s.CommandFrame t ∧ t.entropyDraws = s.entropyDraws

/-- R196: Accept. An idle core takes every word, legal or not: OPREG, STATUS and ERRCODE are written, and nothing else of the state
changes but that the transaction is no longer waiting. OLEN and OBUF stay but cannot be read, since their reads wait for Complete; a
write of CMD that meets a command in progress waits too, and the command's Complete step leaves it first in turn.
That OPREG keeps its word after Complete is the model's choice (log entry 24). -/
def Obligations.AcceptTakesTheCommandWord : Prop :=
  (∀ (s : State) (w : Byte) (e : Bool) (rest : List HostReq), s.busy = false → s.inbox = ⟨.wrCmd w, e⟩ :: rest →
    ∃ t, t = { s with inbox := rest, opreg := w, status := 0x01#8, errcode := 0#8 } ∧ step s = .next t ∧
      t.busy = true ∧ t.done = false ∧ t.err = false) ∧
  (∀ (s : State) (r : HostReq) (rest : List HostReq), s.busy = true → s.ilen.toNat ≤ Config.capIn → s.inbox = r :: rest →
    (∃ w, r.txn = .wrCmd w) ∨ r.txn = .rdOlen ∨ (∃ j, r.txn = .rdObuf j) →
    ∃ t, step s = .next t ∧ t.inbox = r :: rest ∧ t.outbox = s.outbox ∧ t.busy = false ∧ t.opreg = s.opreg ∧
      hostTurn t = some (r.txn, rest))

/-- R59: every transaction but RD_STATUS and RESET that meets a command in progress is held: the step is the command's Complete
step, the operands stay as they were, and the transaction is not lost but is the one the next step performs.
That OPREG keeps its word after Complete is the model's choice (log entry 24). -/
def Obligations.HeldTransactionWaitsForComplete : Prop :=
  ∀ (s : State) (r : HostReq) (rest : List HostReq), s.Inv → s.busy = true → s.inbox = r :: rest →
    r.txn ≠ .rdStatus → r.txn ≠ .reset →
    ∃ t, step s = .next t ∧ complete s = .next t ∧ t.inbox = r :: rest ∧ t.busy = false ∧ t.done = true ∧
      s.CommandFrame t ∧ step t = performTxn r.txn (t.takeRequest rest)

/-- R58: RD_STATUS is performed at once while a command is in progress, returns 0x01, and does not disturb the command. That
the read falls before Complete is the request's `early`, the model's way to write the one total order (log entry 11); a read that falls
after Complete is the one the step after Complete performs, and returns the STATUS that Complete left. -/
def Obligations.StatusReadsBusyDuringACommand : Prop :=
  (∀ (s : State) (rest : List HostReq), s.Inv → s.busy = true → s.inbox = ⟨.rdStatus, true⟩ :: rest →
    step s = .next { s with inbox := rest, outbox := s.outbox ++ [.status 0x01#8] }) ∧
  (∀ (s : State) (rest : List HostReq), s.Inv → s.busy = true → s.inbox = ⟨.rdStatus, false⟩ :: rest →
    ∃ t, step s = .next t ∧ complete s = .next t ∧ t.busy = false ∧ t.done = true ∧
      step t = .next { t with inbox := rest, outbox := s.outbox ++ [.status t.status] })

/-- R240, R241, R243: RESET takes effect at once, at an idle core and also while a command is in progress, whose effect then never
happens; a held transaction is still to be performed. A RESET that falls after the Complete step of the command in progress is the one
the step after Complete performs. Which of the two it does is the request's `early` (log entry 11); what is unspecified after a RESET
is a free value (log entries 4 and 5), and the counters of the free values and the draws go on (log entry 6). -/
def Obligations.ResetTakesEffectAtOnce : Prop :=
  (∀ (s : State) (e : Bool) (rest : List HostReq), s.inbox = ⟨.reset, e⟩ :: rest → s.busy = false ∨ e = true →
    ∃ t, step s = .next t ∧ t.status = 0x00#8 ∧ t.errcode = 0#8 ∧ (∀ i, i < 16 → t.keyByte i = 0x00#8) ∧
      t.klen = 0x00#8 ∧ t.ilen = 0#32 ∧ t.olen = 0#32 ∧ t.phase = .idle ∧
      (∀ j, t.ibufByte j = Config.ibufInit (s.ibufSeed + 1) j) ∧ (∀ j, t.obufByte j = none) ∧
      t.inbox = rest ∧ t.outbox = s.outbox ∧ t.entropyDraws = s.entropyDraws ∧ t.free = s.free) ∧
  (∀ (s : State) (rest : List HostReq), s.Inv → s.busy = true → s.inbox = ⟨.reset, false⟩ :: rest →
    ∃ t, step s = .next t ∧ complete s = .next t ∧ t.done = true ∧ step t = .next (t.takeRequest rest).resetEvent)

/-- R39: the values the spec gives for reset. IBUF holds the unknown content number 0 (log entry 4), no OBUF byte has a value (log entry
5). Nothing is said of OPREG and the internal registers, whose values here are the model's choice (log entries 1 and 2). -/
def Obligations.ResetStateHoldsTheSpecsValues : Prop :=
  State.reset.status = 0x00#8 ∧ State.reset.busy = false ∧ State.reset.done = false ∧ State.reset.err = false ∧
  State.reset.errcode = 0x00#8 ∧ (∀ i, i < 16 → State.reset.keyByte i = 0x00#8) ∧ State.reset.klen = 0x00#8 ∧
  State.reset.ilen = 0#32 ∧ State.reset.olen = 0#32 ∧ State.reset.phase = .idle ∧
  (∀ j, State.reset.ibufByte j = Config.ibufInit 0 j) ∧ (∀ j, State.reset.obufByte j = none)

/-- R68: a read returns what it reads and changes nothing else. A read of an OBUF byte at or beyond OLEN returns a free value and
uses it up (R29; the form of the free value is the model's, log entry 5). -/
def Obligations.ReadsReturnTheirValueAndChangeNothing : Prop :=
  ∀ (s : State) (e : Bool) (rest : List HostReq), s.busy = false →
    (∀ i, i < 16 → s.inbox = ⟨.rdKey i, e⟩ :: rest →
      step s = .next { s with inbox := rest, outbox := s.outbox ++ [.key i (s.keyByte i)] }) ∧
    (s.inbox = ⟨.rdKlen, e⟩ :: rest → step s = .next { s with inbox := rest, outbox := s.outbox ++ [.klen s.klen] }) ∧
    (s.inbox = ⟨.rdIlen, e⟩ :: rest → step s = .next { s with inbox := rest, outbox := s.outbox ++ [.ilen s.ilen] }) ∧
    (∀ j, j < Config.capIn → s.inbox = ⟨.rdIbuf j, e⟩ :: rest →
      step s = .next { s with inbox := rest, outbox := s.outbox ++ [.ibuf j (s.ibufByte j)] }) ∧
    (s.inbox = ⟨.rdStatus, e⟩ :: rest →
      step s = .next { s with inbox := rest, outbox := s.outbox ++ [.status s.status] }) ∧
    (s.inbox = ⟨.rdErrcode, e⟩ :: rest →
      step s = .next { s with inbox := rest, outbox := s.outbox ++ [.errcode s.errcode] }) ∧
    (s.inbox = ⟨.rdOlen, e⟩ :: rest → step s = .next { s with inbox := rest, outbox := s.outbox ++ [.olen s.olen] }) ∧
    (∀ j v, j < Config.capOut → s.obufByte j = some v → s.inbox = ⟨.rdObuf j, e⟩ :: rest →
      step s = .next { s with inbox := rest, outbox := s.outbox ++ [.obuf j v] }) ∧
    (∀ j, j < Config.capOut → s.olen.toNat ≤ j → s.inbox = ⟨.rdObuf j, e⟩ :: rest →
      step s = .next { s with inbox := rest, outbox := s.outbox ++ [.obuf j (Config.freeByte s.free)],
                              free := s.free + 1 })

/-- R58, R68, R26: a write changes the register or byte it names and nothing else; a write of ILEN above CAP_IN is dropped
(of the two treatments R26 allows, the model's choice, log entry 16). -/
def Obligations.WritesChangeOnlyWhatTheyName : Prop :=
  ∀ (s : State) (e : Bool) (rest : List HostReq), s.busy = false →
    (∀ i v, i < 16 → s.inbox = ⟨.wrKey i v, e⟩ :: rest →
      ∃ t, step s = .next t ∧ t.keyByte i = v ∧ (∀ i', i' ≠ i → t.keyByte i' = s.keyByte i') ∧
        t = { s with inbox := rest, key := t.key }) ∧
    (∀ v, s.inbox = ⟨.wrKlen v, e⟩ :: rest → step s = .next { s with inbox := rest, klen := v }) ∧
    (∀ v : Len, v.toNat ≤ Config.capIn → s.inbox = ⟨.wrIlen v, e⟩ :: rest →
      step s = .next { s with inbox := rest, ilen := v }) ∧
    (∀ v : Len, Config.capIn < v.toNat → s.inbox = ⟨.wrIlen v, e⟩ :: rest →
      step s = .next { s with inbox := rest }) ∧
    (∀ j v, j < Config.capIn → s.inbox = ⟨.wrIbuf j v, e⟩ :: rest →
      ∃ t, step s = .next t ∧ t.ibufByte j = v ∧ (∀ j', j' ≠ j → t.ibufByte j' = s.ibufByte j') ∧
        t = { s with inbox := rest, ibuf := t.ibuf })

/-- R51: an index outside its space is no transaction; the model refuses it by name when its turn comes (the three names are the
model's, log entry 15). -/
def Obligations.IndexOutsideItsSpaceIsRefused : Prop :=
  ∀ (s : State) (e : Bool) (rest : List HostReq), s.busy = false →
    (∀ i v, 16 ≤ i → s.inbox = ⟨.wrKey i v, e⟩ :: rest → step s = .refused (.keyIndex i)) ∧
    (∀ i, 16 ≤ i → s.inbox = ⟨.rdKey i, e⟩ :: rest → step s = .refused (.keyIndex i)) ∧
    (∀ j v, Config.capIn ≤ j → s.inbox = ⟨.wrIbuf j v, e⟩ :: rest → step s = .refused (.ibufIndex j)) ∧
    (∀ j, Config.capIn ≤ j → s.inbox = ⟨.rdIbuf j, e⟩ :: rest → step s = .refused (.ibufIndex j)) ∧
    (∀ j, Config.capOut ≤ j → s.inbox = ⟨.rdObuf j, e⟩ :: rest → step s = .refused (.obufIndex j))

/-- The reset state is legal: the invariant of `StepKeepsTheStateLegal` holds there. The internal registers are within their sizes by the
model's reset values (log entry 2). -/
def Obligations.ResetStateIsLegal : Prop := State.reset.Inv

/-- R22, R23, R26, R27, R29, R50: every step from a legal state leads to a legal one: STATUS and ERRCODE hold a reachable
combination, ILEN is at most CAP_IN, OLEN at most CAP_OUT, OBUF lists exactly the bytes below OLEN, IBUF keeps its canonical form
within CAP_IN, the internal registers keep their sizes. The canonical forms and the free values of the internal registers are the model's
choice (log entries 3, 4 and 5). -/
def Obligations.StepKeepsTheStateLegal : Prop := ∀ s t : State, s.Inv → step s = .next t → t.Inv

/-- R197, R243, R248: an accepted command completes unless a RESET that falls before its Complete step abandons it. From every legal busy
state the core is idle again within one step more than the transactions waiting, and then either DONE is set, or a RESET with `early`
was waiting and STATUS is 0x00. That only finitely many transactions wait, and `early`, are the model's choice (log entry 11). -/
def Obligations.AcceptedCommandCompletes : Prop :=
  ∀ s : State, s.Inv → s.busy = true →
    ∃ k t, k ≤ s.inbox.length + 1 ∧ Host.Core.run Sys2Proof.core k s = .next t ∧ t.busy = false ∧
      (t.done = true ∨ (t.status = 0x00#8 ∧ ∃ r, r ∈ s.inbox ∧ r.txn = .reset ∧ r.early = true))

/-- R24, R25, R26, R28, R68: over all steps, KEY, KLEN, ILEN and IBUF change only by the host's own write of them or by RESET. -/
def Obligations.OperandsChangeOnlyByTheHost : Prop :=
  ∀ s t : State, step s = .next t →
    (t.key ≠ s.key → ∃ rest, hostTurn s = some (.reset, rest) ∨ ∃ i v, hostTurn s = some (.wrKey i v, rest)) ∧
    (t.klen ≠ s.klen → ∃ rest, hostTurn s = some (.reset, rest) ∨ ∃ v, hostTurn s = some (.wrKlen v, rest)) ∧
    (t.ilen ≠ s.ilen → ∃ rest, hostTurn s = some (.reset, rest) ∨ ∃ v, hostTurn s = some (.wrIlen v, rest)) ∧
    (∀ j, t.ibufByte j ≠ s.ibufByte j →
      ∃ rest, hostTurn s = some (.reset, rest) ∨ ∃ v, hostTurn s = some (.wrIbuf j v, rest))

/-- R68: over all steps, STATUS and ERRCODE change only at Accept, Complete and RESET, and OLEN and OBUF only at Complete and
RESET. -/
def Obligations.ResultsChangeOnlyAtAcceptAndComplete : Prop :=
  ∀ s t : State, step s = .next t →
    (t.status ≠ s.status ∨ t.errcode ≠ s.errcode →
      (hostTurn s = none ∧ s.busy = true) ∨
      ∃ rest, hostTurn s = some (.reset, rest) ∨ ∃ w, hostTurn s = some (.wrCmd w, rest)) ∧
    (t.olen ≠ s.olen ∨ t.obuf ≠ s.obuf →
      (hostTurn s = none ∧ s.busy = true) ∨ ∃ rest, hostTurn s = some (.reset, rest))

/-! ## The mapper -/

/-- R96, R98: the laws of `S2C` and `C2S` for every allowed UNK_CHAR, that the platform's UNK_CHAR is one, and the count of the
bytes with code 31. -/
def Obligations.MapperLaws : Prop :=
  Config.unkChar ∉ Config.symbolBytes ∧
  (∀ unk : Byte, unk ∉ Config.symbolBytes →
    (∀ k k' : Code, c2s unk k = c2s unk k' → k = k') ∧
    (∀ k : Code, k ≠ 31#5 → s2c (c2s unk k) = k) ∧
    (s2c (c2s unk 31#5) = 31#5 ↔ ¬ (0x41#8 ≤ unk ∧ unk ≤ 0x5A#8)) ∧
    (∀ c : Byte, caseFold c ∈ Config.symbolBytes → c2s unk (s2c c) = caseFold c) ∧
    (∀ c : Byte, caseFold c ∉ Config.symbolBytes → c2s unk (s2c c) = unk)) ∧
  (∀ c : Byte, s2c c = s2c (caseFold c)) ∧
  ((List.range 256).filter (fun n => decide (s2c (BitVec.ofNat 8 n) = 31#5))).length = 199

/-- R31, R32, R97: the ROM tables hold `S2C` and `C2S`. -/
def Obligations.RomsHoldTheMapper : Prop :=
  s2cRom.length = 256 ∧ (∀ c : Byte, s2cRom[c.toNat]? = some (s2c c)) ∧
  c2sRom.length = 32 ∧ (∀ k : Code, c2sRom[k.toNat]? = some (c2s Config.unkChar k))

/-! ## The gearbox -/

/-- R110, R111, R112: where each bit of each code lies in the packed bytes, how many bytes there are, and the zero pad. -/
def Obligations.PackedBitsLieWhereTheRulesSay : Prop :=
  ∀ c : List Code,
    (bits5 c).length = 5 * c.length ∧
    (∀ i r, r ≤ 4 → (bits5 c)[5 * i + r]? = (c)[i]?.map (fun k => k.getLsbD (4 - r))) ∧
    (pack5 c).length = (5 * c.length + 7) / 8 ∧
    (∀ k r, k < (5 * c.length + 7) / 8 → r ≤ 7 →
      (pack5 c)[k]?.map (fun v => v.getLsbD (7 - r)) =
        some (if h : 8 * k + r < (bits5 c).length then (bits5 c)[8 * k + r] else false)) ∧
    padBits c.length = 8 * ((5 * c.length + 7) / 8) - 5 * c.length ∧
    padBits c.length = [0, 3, 6, 1, 4, 7, 2, 5][c.length % 8]! ∧
    pack5 [] = [] ∧ pack5 [0#5, 1#5] = [0x00#8, 0x40#8]

/-- R114, R115: where each bit of each byte goes among the codes, how many codes there are, and that the 8L mod 5 bits at the end go
nowhere. -/
def Obligations.UnpackedBitsLieWhereTheRulesSay : Prop :=
  ∀ b : List Byte,
    (unpack5 b).length = 8 * b.length / 5 ∧
    (∀ i r k r', i < 8 * b.length / 5 → r ≤ 4 → r' ≤ 7 → 5 * i + r = 8 * k + r' →
      (unpack5 b)[i]?.map (fun c => c.getLsbD (4 - r)) = b[k]?.map (fun v => v.getLsbD (7 - r'))) ∧
    (∀ b' : List Byte, b'.length = b.length →
      (∀ k r', 8 * k + r' < 5 * (8 * b.length / 5) → r' ≤ 7 →
        b[k]?.map (fun v => v.getLsbD (7 - r')) = b'[k]?.map (fun v => v.getLsbD (7 - r'))) →
      unpack5 b = unpack5 b') ∧
    8 * b.length - 5 * (8 * b.length / 5) = [0, 3, 1, 4, 2][b.length % 5]! ∧
    unpack5 [] = [] ∧ unpack5 [0x00#8, 0x40#8] = [0#5, 1#5, 0#5]

/-- R113: the packed bytes are the codes read as one base-32 number, shifted left by the pad. -/
def Obligations.PackIsBaseThirtyTwo : Prop :=
  ∀ c : List Code,
    pack5 c = be (packedLen c.length) (c.foldl (fun acc k => 32 * acc + k.toNat) 0 * 2 ^ padBits c.length)

/-- R116: the codes are the base-32 digits of the bytes read as one number and shifted right by the tail. -/
def Obligations.UnpackIsBaseThirtyTwo : Prop :=
  ∀ b : List Byte,
    (unpack5 b).length = 8 * b.length / 5 ∧
    (unpack5 b).foldl (fun acc k => 32 * acc + k.toNat) 0 = numB b / 2 ^ (8 * b.length - 5 * (8 * b.length / 5))

/-- R117: unpacking what was packed gives the codes, and one code 0 more exactly when the pad is 5 bits or more. -/
def Obligations.UnpackAfterPack : Prop :=
  ∀ c : List Code,
    (padBits c.length ≤ 4 → unpack5 (pack5 c) = c) ∧
    (5 ≤ padBits c.length → unpack5 (pack5 c) = c ++ [0#5]) ∧
    (5 ≤ padBits c.length ↔ c.length % 8 = 2 ∨ c.length % 8 = 5 ∨ c.length % 8 = 7)

/-- R118: packing what was unpacked clears the dropped bits of the last byte and nothing else. -/
def Obligations.PackAfterUnpack : Prop :=
  pack5 (unpack5 []) = [] ∧
  ∀ (b : List Byte) (v : Byte),
    pack5 (unpack5 (b ++ [v])) =
      b ++ [(v >>> (8 * (b.length + 1) % 5)) <<< (8 * (b.length + 1) % 5)] ∧
    (pack5 (unpack5 (b ++ [v])) = b ++ [v] ↔ ∀ r, r < 8 * (b.length + 1) % 5 → v.getLsbD r = false)

/-- R121: packing is injective on code sequences of one length, and not across lengths. -/
def Obligations.PackIsInjectiveOnOneLength : Prop :=
  (∀ c c' : List Code, c.length = c'.length → pack5 c = pack5 c' → c = c') ∧
  pack5 [0#5, 1#5] = pack5 [0#5, 1#5, 0#5] ∧ pack5 [0#5, 1#5] = [0x00#8, 0x40#8]

/-- R119: the packer datapath computes `PACK5`, and CNT ends at most 7. The datapath stands beside the step (log entry 19). -/
def Obligations.PackerDatapathComputesPack : Prop :=
  ∀ (d : Datapath) (stg : Stage) (c : List Code),
    (packCodes (d.clearGearbox stg) c).2 = pack5 c ∧ (packCodes (d.clearGearbox stg) c).1.cnt.val ≤ 7

/-- R120: the unpacker datapath computes `UNPACK5`, and CNT ends at most 4. The datapath stands beside the step (log entry 19). -/
def Obligations.UnpackerDatapathComputesUnpack : Prop :=
  ∀ (d : Datapath) (stg : Stage) (b : List Byte),
    (unpackBytes (d.clearGearbox stg) b).2 = unpack5 b ∧ (unpackBytes (d.clearGearbox stg) b).1.cnt.val ≤ 4

/-- R128: decoding what was encoded gives the folded text, followed by one "a" exactly when the number of characters mod 8 is 2, 5
or 7; the folded text of recognised symbols is the text case-folded. -/
def Obligations.DecodeAfterEncode : Prop :=
  ∀ (unk : Byte) (t : List Byte),
    (t.length % 8 ∈ [0, 1, 3, 4, 6] → dec unk (enc t) = foldStar unk t) ∧
    (t.length % 8 ∈ [2, 5, 7] → dec unk (enc t) = foldStar unk t ++ [0x61#8]) ∧
    ((∀ c ∈ t, caseFold c ∈ Config.symbolBytes) → foldStar unk t = t.map caseFold)

/-! ## The Feistel engine -/

/-- R143, R144: numeral j is bit j mod 8 of byte j div 8, in both directions, and the two functions are inverse. -/
def Obligations.NumeralsAreBytesLeastSignificantBitFirst : Prop :=
  (∀ buf : List Byte, (bitsLe buf).length = 8 * buf.length ∧ bytesLe (bitsLe buf) = buf ∧
    ∀ j, (bitsLe buf)[j]? = buf[j / 8]?.map (fun v => v.getLsbD (j % 8))) ∧
  (∀ x : List Bool, x.length % 8 = 0 →
    bitsLe (bytesLe x) = x ∧ (bytesLe x).length = x.length / 8 ∧
    ∀ k r, r < 8 → (bytesLe x)[k]?.map (fun v => v.getLsbD r) = x[8 * k + r]?) ∧
  bitsLe [0x00#8, 0x40#8] = List.replicate 14 false ++ [true, false]

/-- R145 to R148 on the lengths the hardware presents: the halves, b, d and z; the sixteen bytes of P (version 1, method 2, addition 1;
radix 2; ten rounds; u mod 256; n; tweak length 0); and Q, whole blocks that hold the round index and the half behind z zero bytes. -/
def Obligations.RoundStringsHaveTheirSizes : Prop :=
  ∀ (l i : Nat) (h : List Bool), 1 ≤ l → 8 * l < 2 ^ 32 → i < 10 → h.length = 4 * l →
    fpeU (8 * l) = 4 * l ∧ fpeV (8 * l) = 4 * l ∧ fpeB (8 * l) = (l + 1) / 2 ∧
    fpeD (8 * l) = 4 * (((l + 1) / 2 + 3) / 4) + 4 ∧ fpeZ (8 * l) < 16 ∧
    pBytes (8 * l) =
      [0x01#8, 0x02#8, 0x01#8, 0x00#8, 0x00#8, 0x02#8, 0x0A#8, BitVec.ofNat 8 (4 * l % 256),
        BitVec.ofNat 8 (8 * l / 2 ^ 24), BitVec.ofNat 8 (8 * l / 2 ^ 16 % 256), BitVec.ofNat 8 (8 * l / 2 ^ 8 % 256),
        BitVec.ofNat 8 (8 * l % 256), 0x00#8, 0x00#8, 0x00#8, 0x00#8] ∧
    (qBytes (8 * l) i h).length = fpeZ (8 * l) + 1 + fpeB (8 * l) ∧ (qBytes (8 * l) i h).length % 16 = 0 ∧
    numB (qBytes (8 * l) i h) = i * 256 ^ fpeB (8 * l) + num2 h

/-- R157: the transforms keep the length of the buffer. -/
def Obligations.FpeKeepsTheLength : Prop :=
  ∀ (ciph : Block → Block → Block) (k : Block) (buf : List Byte),
    (fpeEnc ciph k buf).length = buf.length ∧ (fpeDec ciph k buf).length = buf.length

/-- R158: the two transforms undo each other, for every key, every buffer and every function in place of CIPH. -/
def Obligations.FpeTransformsAreInverse : Prop :=
  ∀ (ciph : Block → Block → Block) (k : Block) (buf : List Byte),
    fpeDec ciph k (fpeEnc ciph k buf) = buf ∧ fpeEnc ciph k (fpeDec ciph k buf) = buf

/-- R159: with a cipher that answers zero to every query both transforms are the identity. -/
def Obligations.ZeroCipherLeavesTheBuffer : Prop :=
  ∀ (k : Block) (buf : List Byte),
    fpeEnc (fun _ _ => 0#128) k buf = buf ∧ fpeDec (fun _ _ => 0#128) k buf = buf

/-- R161: the number of cipher queries of a run, and that each round begins with the query of P. -/
def Obligations.QueryCountOfARun : Prop :=
  (∀ (ciph : Block → Block → Block) (k : Block) (buf : List Byte),
    (fpeEncQueries ciph k buf).length = queryCount buf.length ∧
    (fpeDecQueries ciph k buf).length = queryCount buf.length) ∧
  (∀ (ciph : Block → Block → Block) (k : Block) (n i : Nat) (h : List Bool),
    (roundQueries ciph k n i h).head? = some (blockOf (pBytes n))) ∧
  queryCount 0 = 0 ∧ queryCount 1 = 20 ∧ queryCount 2 = 20 ∧ queryCount 26 = 30 ∧ queryCount 32 = 40

/-! ## The commands -/

/-- R125: ENCODE completes and delivers `ENC` of the input; it reads no key and leaves every operand as it was.
That OPREG keeps its word after Complete is the model's choice (log entry 24). -/
def Obligations.EncodeDeliversThePackedText : Prop :=
  decodeCmd 0x00#8 = .ok .encode ∧ enc [0x61#8, 0x62#8] = [0x00#8, 0x40#8] ∧
  ∀ s : State, s.ilen.toNat ≤ Config.capIn →
    ∃ t, exec .encode s = .next t ∧ t.Delivers (enc s.inputBytes) ∧ t.olen.toNat = (5 * s.ilen.toNat + 7) / 8 ∧
      t.olen.toNat ≤ s.ilen.toNat ∧ t.Succeeded ∧ t.busy = false ∧ t.done = true ∧ t.err = false ∧ s.CommandFrame t ∧
      t.entropyDraws = s.entropyDraws

/-- R126: DECODE completes and delivers `DEC` of the input; it reads no key and leaves every operand as it was.
That OPREG keeps its word after Complete is the model's choice (log entry 24). -/
def Obligations.DecodeDeliversTheText : Prop :=
  decodeCmd 0x01#8 = .ok .decode ∧ dec Config.unkChar [0x00#8, 0x40#8] = [0x61#8, 0x62#8, 0x61#8] ∧
  ∀ s : State, s.ilen.toNat ≤ Config.capIn →
    ∃ t, exec .decode s = .next t ∧ t.Delivers (dec Config.unkChar s.inputBytes) ∧
      t.olen.toNat = 8 * s.ilen.toNat / 5 ∧ t.olen.toNat ≤ Config.capOut ∧ t.Succeeded ∧ t.busy = false ∧
      t.done = true ∧ t.err = false ∧ s.CommandFrame t ∧ t.entropyDraws = s.entropyDraws

/-- R165: ENCRYPT with a key of 16 bytes completes: with `FPE_ENC` of the input under KEY if the cipher takes the key (CIPH_KEY_OK is
the platform's, and no state fixes its answer), else with cause 2 and no output. With a key of another length it ends in cause 1
with no output. An error makes no query of the cipher.
That OPREG keeps its word after Complete is the model's choice (log entry 24). -/
def Obligations.EncryptDeliversTheTransform : Prop :=
  decodeCmd 0x02#8 = .ok .encrypt ∧
  fpeEnc (fun _ _ => 0#128) 0#128 [0x00#8, 0x40#8] = [0x00#8, 0x40#8] ∧
  (∀ s : State, s.klen = 16#8 → s.ilen.toNat ≤ Config.capIn →
    ∃ t, exec .encrypt s = .next t ∧ s.CommandFrame t ∧ t.entropyDraws = s.entropyDraws ∧
      if Config.ciphKeyOk s.keyBlock then
        t.Delivers (fpeEnc Config.ciph s.keyBlock s.inputBytes) ∧ t.olen = s.ilen ∧ t.Succeeded
      else t.Failed 2#8 ∧ cmdQueries .encrypt s = []) ∧
  (∀ s : State, s.klen ≠ 16#8 →
    ∃ t, exec .encrypt s = .next t ∧ s.CommandFrame t ∧ t.entropyDraws = s.entropyDraws ∧ t.Failed 1#8 ∧
      cmdQueries .encrypt s = [])

/-- R166: DECRYPT, the same with `FPE_DEC`.
That OPREG keeps its word after Complete is the model's choice (log entry 24). -/
def Obligations.DecryptDeliversTheInverseTransform : Prop :=
  decodeCmd 0x03#8 = .ok .decrypt ∧
  (∀ s : State, s.klen = 16#8 → s.ilen.toNat ≤ Config.capIn →
    ∃ t, exec .decrypt s = .next t ∧ s.CommandFrame t ∧ t.entropyDraws = s.entropyDraws ∧
      if Config.ciphKeyOk s.keyBlock then
        t.Delivers (fpeDec Config.ciph s.keyBlock s.inputBytes) ∧ t.olen = s.ilen ∧ t.Succeeded
      else t.Failed 2#8 ∧ cmdQueries .decrypt s = []) ∧
  (∀ s : State, s.klen ≠ 16#8 →
    ∃ t, exec .decrypt s = .next t ∧ s.CommandFrame t ∧ t.entropyDraws = s.entropyDraws ∧ t.Failed 1#8 ∧
      cmdQueries .decrypt s = [])

/-- R193: RUNENC completes: without K with `ENC` of the input, whatever the key registers hold; with K and a key of 16 bytes that the
cipher takes with `FPE_ENC` of it, else with cause 2 and no output; with K and a key of another length in cause 1 with no output.
That OPREG keeps its word after Complete is the model's choice (log entry 24). -/
def Obligations.RunencDeliversThePipeline : Prop :=
  decodeCmd 0x04#8 = .ok (.runenc false) ∧ decodeCmd 0x0C#8 = .ok (.runenc true) ∧
  (∀ (k : Bool) (s : State), (k = true → s.klen = 16#8) → s.ilen.toNat ≤ Config.capIn →
    ∃ t, exec (.runenc k) s = .next t ∧ s.CommandFrame t ∧ t.entropyDraws = s.entropyDraws ∧
      if k = true ∧ Config.ciphKeyOk s.keyBlock = false then t.Failed 2#8
      else
        t.Delivers (if k then fpeEnc Config.ciph s.keyBlock (enc s.inputBytes) else enc s.inputBytes) ∧
        t.olen.toNat = (5 * s.ilen.toNat + 7) / 8 ∧ t.Succeeded) ∧
  (∀ s : State, s.klen ≠ 16#8 →
    ∃ t, exec (.runenc true) s = .next t ∧ s.CommandFrame t ∧ t.entropyDraws = s.entropyDraws ∧ t.Failed 1#8)

/-- R194: RUNDEC completes: without K with `DEC` of the input, whatever the key registers hold; with K and a key of 16 bytes that the
cipher takes with `DEC` of `FPE_DEC` of it, else with cause 2 and no output; with K and a key of another length in cause 1 with no
output.
That OPREG keeps its word after Complete is the model's choice (log entry 24). -/
def Obligations.RundecDeliversThePipeline : Prop :=
  decodeCmd 0x05#8 = .ok (.rundec false) ∧ decodeCmd 0x0D#8 = .ok (.rundec true) ∧
  (∀ (k : Bool) (s : State), (k = true → s.klen = 16#8) → s.ilen.toNat ≤ Config.capIn →
    ∃ t, exec (.rundec k) s = .next t ∧ s.CommandFrame t ∧ t.entropyDraws = s.entropyDraws ∧
      if k = true ∧ Config.ciphKeyOk s.keyBlock = false then t.Failed 2#8
      else
        t.Delivers (dec Config.unkChar (if k then fpeDec Config.ciph s.keyBlock s.inputBytes else s.inputBytes)) ∧
        t.olen.toNat = 8 * s.ilen.toNat / 5 ∧ t.Succeeded) ∧
  (∀ s : State, s.klen ≠ 16#8 →
    ∃ t, exec (.rundec true) s = .next t ∧ s.CommandFrame t ∧ t.entropyDraws = s.entropyDraws ∧ t.Failed 1#8)

/-- R167: GENKEY completes in every state with the sixteen bytes of one entropy query, which are a free value, and touches neither
KEY nor KLEN. That the draw is `Config.entropy` at the counter of the draws is the model's choice (log entry 6).
That OPREG keeps its word after Complete is the model's choice (log entry 24). -/
def Obligations.GenkeyDeliversTheDraw : Prop :=
  decodeCmd 0x06#8 = .ok .genkey ∧
  ∀ s : State, ∃ t, exec .genkey s = .next t ∧ t.Delivers (blockBytes (Config.entropy s.entropyDraws)) ∧
    t.olen = 16#32 ∧ t.Succeeded ∧ s.CommandFrame t ∧ t.entropyDraws = s.entropyDraws + 1

/-- R211, R216: a keyed command with KLEN other than 16 ends in cause 1 with no output, no query on either port and no operand
changed, whatever ILEN is.
That OPREG keeps its word after Complete is the model's choice (log entry 24). -/
def Obligations.WrongKeyLengthEndsInCauseOne : Prop :=
  ∀ (i : Instr) (s : State), keyedCommand i = true → s.klen ≠ 16#8 →
    ∃ t, exec i s = .next t ∧ t.Failed 1#8 ∧ s.CommandFrame t ∧ t.entropyDraws = s.entropyDraws ∧ cmdQueries i s = []

/-- R212, R214, R217: which cause a keyed command reports, exactly: 1 when KLEN is not 16, 2 when it is 16 and the cipher rejects the
key, 0 otherwise. -/
def Obligations.CauseOfAKeyedCommandIsExact : Prop :=
  ∀ (i : Instr) (s : State), keyedCommand i = true → s.ilen.toNat ≤ Config.capIn →
    ∃ t, exec i s = .next t ∧
      (t.errcode = 1#8 ↔ s.klen ≠ 16#8) ∧
      (t.errcode = 2#8 ↔ s.klen = 16#8 ∧ Config.ciphKeyOk s.keyBlock = false) ∧
      (t.errcode = 0#8 ↔ s.klen = 16#8 ∧ Config.ciphKeyOk s.keyBlock = true) ∧
      (t.status = 0x06#8 ↔ t.errcode ≠ 0#8) ∧ (t.status = 0x02#8 ↔ t.errcode = 0#8)

/-- R225: ENCODE, DECODE, GENKEY, and RUNENC and RUNDEC with K = 0 always complete successfully, in every state with ILEN at most
CAP_IN, whatever every register and buffer holds. -/
def Obligations.UnkeyedCommandsNeverRaise : Prop :=
  ∀ (i : Instr) (s : State), keyedCommand i = false → s.ilen.toNat ≤ Config.capIn →
    ∃ t, exec i s = .next t ∧ t.Succeeded ∧ t.olen.toNat ≤ Config.capOut

/-- R198, R64: the frame of all seven commands, whether they succeed or raise: KEY, KLEN, ILEN, every byte of IBUF, OPREG and the
host's side of the port are unchanged, and the entropy port is queried by GENKEY only, once.
That OPREG keeps its word after Complete is the model's choice (log entry 24). -/
def Obligations.CommandsLeaveTheirOperands : Prop :=
  ∀ (i : Instr) (s t : State), exec i s = .next t →
    s.CommandFrame t ∧ t.entropyDraws = s.entropyDraws + (if i = .genkey then 1 else 0) ∧ t.ibufSeed = s.ibufSeed

/-- R11, R190: the result of a command depends on its own operands alone: two states that agree on the input bytes give the same
STATUS, ERRCODE, OLEN and output, if they also agree on the key registers when the command is keyed, and on the draw when it is
GENKEY. An unkeyed command learns nothing of KEY and KLEN. -/
def Obligations.ResultDependsOnOperandsAlone : Prop :=
  ∀ (i : Instr) (s s' t : State), s.ilen = s'.ilen → (∀ j, j < s.ilen.toNat → s.ibufByte j = s'.ibufByte j) →
    (keyedCommand i = true → s.key = s'.key ∧ s.klen = s'.klen) →
    (i = .genkey → s.entropyDraws = s'.entropyDraws) → exec i s = .next t →
    ∃ t', exec i s' = .next t' ∧ t'.status = t.status ∧ t'.errcode = t.errcode ∧ t'.olen = t.olen ∧
      ∀ j, t'.obufByte j = t.obufByte j

/-- R199: RUNENC with K gives what ENCODE, a move of the output to the input, and ENCRYPT give, and RUNDEC with K what DECRYPT, the
move, and DECODE give, when no error occurs; without K they are ENCODE and DECODE. -/
def Obligations.PipelineIsTheStagesWithAMoveBetween : Prop :=
  (∀ s : State, exec (.runenc false) s = exec .encode s ∧ exec (.rundec false) s = exec .decode s) ∧
  (∀ s m t u : State, exec .encode s = .next t → m.key = s.key → m.klen = s.klen → m.ilen = t.olen →
    (∀ j, j < t.olen.toNat → t.obufByte j = some (m.ibufByte j)) → exec .encrypt m = .next u →
    ∃ v, exec (.runenc true) s = .next v ∧ v.errcode = u.errcode ∧ v.olen = u.olen ∧
      ∀ j, v.obufByte j = u.obufByte j) ∧
  (∀ s m t u : State, s.ilen.toNat ≤ Config.capIn → exec .decrypt s = .next t → m.ilen = t.olen →
    (∀ j, j < t.olen.toNat → t.obufByte j = some (m.ibufByte j)) → exec .decode m = .next u →
    ∃ v, exec (.rundec true) s = .next v ∧ v.errcode = t.errcode ∧
      if t.errcode = 0#8 then v.olen = u.olen ∧ ∀ j, v.obufByte j = u.obufByte j else v.Failed t.errcode)

/-- R200: `RUN_DEC(RUN_ENC(t, K), K) = DEC(ENC(t))` for every cipher and key; and on the machine, RUNENC, a move of the output to the
input, and RUNDEC with the same K and the same key deliver `DEC(ENC(t))` when the key passes its check. -/
def Obligations.RundecUndoesRunenc : Prop :=
  (∀ (ciph : Block → Block → Block) (unk : Byte) (key : Option Block) (t : List Byte),
    runDec ciph unk key (runEnc ciph key t) = dec unk (enc t)) ∧
  ∀ (k : Bool) (s m t : State), exec (.runenc k) s = .next t → m.key = s.key → m.klen = s.klen → m.ilen = t.olen →
    (∀ j, j < t.olen.toNat → t.obufByte j = some (m.ibufByte j)) →
    ∃ u, exec (.rundec k) m = .next u ∧ u.errcode = t.errcode ∧
      if t.errcode = 0#8 then u.Delivers (dec Config.unkChar (enc s.inputBytes)) else u.Failed t.errcode

/-- R62, R63, R161: what a command asks of the cipher port: nothing when it is not keyed, ends in an error, or has an empty input;
otherwise, with a key the cipher takes, the count of R161 for the bytes the FPE stage sees; and every query carries KEY. -/
def Obligations.CipherQueriesOfACommand : Prop :=
  ∀ (i : Instr) (s : State),
    (keyedCommand i = false → cmdQueries i s = []) ∧
    (commandError i s ≠ none → cmdQueries i s = []) ∧
    (s.ilen = 0#32 → cmdQueries i s = []) ∧
    (cmdQueries i s).map (fun q => q.1) = List.replicate (cmdQueries i s).length s.keyBlock ∧
    (s.klen = 16#8 → i = .encrypt ∨ i = .decrypt ∨ i = .rundec true →
      (cmdQueries i s).length = if Config.ciphKeyOk s.keyBlock then queryCount s.ilen.toNat else 0) ∧
    (s.klen = 16#8 → i = .runenc true →
      (cmdQueries i s).length =
        if Config.ciphKeyOk s.keyBlock then queryCount ((5 * s.ilen.toNat + 7) / 8) else 0)

/-- R195, R33 to R36, R119, R120: the sequencer, running a command's stages on its registers with WBUF between two stages, computes
what the command delivers, from whatever the registers held before. The sequencer stands beside the step (log entry 19). -/
def Obligations.SequencerRealisesTheCommands : Prop :=
  ∀ (i : Instr) (s : State), s.ilen.toNat ≤ Config.capIn →
    (sequencerRun i s).2 = commandOutput i s ∧
    exec i s = .next (match commandError i s with
      | some c => s.raiseError c
      | none => (s.afterDraws i).succeed (sequencerRun i s).2)

/-! ## The host's script lines -/

/-- R81, R58: `IN` loads the input: after its transactions an idle core holds the bytes in IBUF and their number in ILEN. -/
def Obligations.InLineLoadsTheInput : Prop :=
  ∀ (s : State) (bs : List Byte), s.busy = false → bs.length ≤ Config.capIn →
    s.inbox = scriptRequests false (lineIn bs) →
    ∃ t, Host.Core.run Sys2Proof.core (bs.length + 1) s = .next t ∧ t.inputBytes = bs ∧ t.inbox = [] ∧
      t.key = s.key ∧ t.klen = s.klen ∧ t.status = s.status ∧ t.olen = s.olen ∧ t.obuf = s.obuf

/-- R81, R58: `KEY` with 16 bytes loads the key: after its transactions an idle core holds the bytes in KEY and 16 in KLEN. -/
def Obligations.KeyLineLoadsTheKey : Prop :=
  ∀ (s : State) (bs : List Byte), s.busy = false → bs.length = 16 →
    s.inbox = scriptRequests false (lineKey bs) →
    ∃ t, Host.Core.run Sys2Proof.core 17 s = .next t ∧ t.key.toList = bs ∧ t.keyBlock = blockOf bs ∧ t.klen = 16#8 ∧
      t.inbox = [] ∧ t.inputBytes = s.inputBytes ∧ t.status = s.status

/-- R81, R58: `OUT` reads the output: an idle core in a legal state returns OLEN and then the bytes of OBUF below it. -/
def Obligations.OutLineReadsTheOutput : Prop :=
  ∀ (s : State) (out : List Byte), s.Inv → s.busy = false → s.Delivers out →
    s.inbox = scriptRequests false (lineOut out.length) →
    ∃ t, Host.Core.run Sys2Proof.core (out.length + 1) s = .next t ∧ t.inbox = [] ∧
      ∃ rs, t.outbox = s.outbox ++ .olen s.olen :: rs ∧ outBytes rs = out ∧ t.obuf = s.obuf ∧ t.free = s.free
end

