-- ==== Sys2Proof/Laws/Bits.lean ====
section
/-! SUPPORT. The laws of bit strings, byte strings and the numbers they hold. -/

namespace Sys2Proof.Machine

@[simp] theorem num2_nil : num2 [] = 0 := rfl

@[simp] theorem num2_concat (x : List Bool) (b : Bool) : num2 (x ++ [b]) = 2 * num2 x + b.toNat := by
  simp [num2]

theorem num2_append (x y : List Bool) : num2 (x ++ y) = num2 x * 2 ^ y.length + num2 y := by
  induction y using List.reverseRecOn with
  | nil => simp
  | append_singleton y b ih =>
    rw [← List.append_assoc, num2_concat, num2_concat, ih, List.length_append, List.length_singleton, pow_succ]
    ring

theorem num2_lt (x : List Bool) : num2 x < 2 ^ x.length := by
  induction x using List.reverseRecOn with
  | nil => simp
  | append_singleton x b ih =>
    rw [num2_concat, List.length_append, List.length_singleton, pow_succ]
    have := b.toNat_lt
    omega

@[simp] theorem str2_length (m x : Nat) : (str2 m x).length = m := by
  induction m generalizing x with
  | zero => rfl
  | succ m ih => simp [str2, ih]

/-- `NUM2` undoes `STR2` on numbers that fit. -/
theorem num2_str2 (m x : Nat) : num2 (str2 m x) = x % 2 ^ m := by
  induction m generalizing x with
  | zero => simp [str2, Nat.mod_one]
  | succ m ih =>
    rw [str2, num2_concat, ih]
    have h : x % 2 ^ (m + 1) = 2 * (x / 2 % 2 ^ m) + x % 2 := by
      rw [pow_succ, Nat.mul_comm (2 ^ m) 2, Nat.mod_mul]
      omega
    rw [h]
    rcases Nat.mod_two_eq_zero_or_one x with h2 | h2 <;> simp [h2]

/-- `STR2` undoes `NUM2` at the string's own length. -/
theorem str2_num2 (x : List Bool) : str2 x.length (num2 x) = x := by
  induction x using List.reverseRecOn with
  | nil => rfl
  | append_singleton x b ih =>
    rw [List.length_append, List.length_singleton, str2, num2_concat]
    have h1 : (2 * num2 x + b.toNat) / 2 = num2 x := by have := b.toNat_lt; omega
    have h2 : (2 * num2 x + b.toNat) % 2 = b.toNat := by have := b.toNat_lt; omega
    rw [h1, h2, ih]
    cases b <;> rfl

/-- A bit string is determined by its length and its number. -/
theorem num2_inj {x y : List Bool} (h : x.length = y.length) (e : num2 x = num2 y) : x = y := by
  rw [← str2_num2 x, ← str2_num2 y, h, e]

/-- The high and the low bits of a number. -/
theorem str2_split (m n x : Nat) : str2 (m + n) x = str2 m (x / 2 ^ n) ++ str2 n (x % 2 ^ n) := by
  apply num2_inj
  · simp
  · rw [num2_append, num2_str2, num2_str2, num2_str2, str2_length, Nat.mod_mod, pow_add, Nat.mul_comm (2 ^ m), Nat.mod_mul]
    ring

@[simp] theorem numB_nil : numB [] = 0 := rfl

@[simp] theorem numB_concat (s : List Byte) (v : Byte) : numB (s ++ [v]) = 256 * numB s + v.toNat := by
  simp [numB]

theorem numB_append (s r : List Byte) : numB (s ++ r) = numB s * 256 ^ r.length + numB r := by
  induction r using List.reverseRecOn with
  | nil => simp
  | append_singleton r v ih =>
    rw [← List.append_assoc, numB_concat, numB_concat, ih, List.length_append, List.length_singleton, pow_succ]
    ring

theorem numB_lt (s : List Byte) : numB s < 256 ^ s.length := by
  induction s using List.reverseRecOn with
  | nil => simp
  | append_singleton s v ih =>
    rw [numB_concat, List.length_append, List.length_singleton, pow_succ]
    have := v.isLt
    omega

@[simp] theorem be_length (k x : Nat) : (be k x).length = k := by
  induction k generalizing x with
  | zero => rfl
  | succ k ih => simp [be, ih]

/-- `NUMB` undoes `BE` on numbers that fit. -/
theorem numB_be (k x : Nat) : numB (be k x) = x % 256 ^ k := by
  induction k generalizing x with
  | zero => simp [be, Nat.mod_one]
  | succ k ih =>
    have h : x % 256 ^ (k + 1) = x % 256 + 256 * (x / 256 % 256 ^ k) := by
      rw [pow_succ, Nat.mul_comm (256 ^ k) 256, Nat.mod_mul]
    rw [be, numB_concat, ih, BitVec.toNat_ofNat, h]
    omega

/-- `BE` undoes `NUMB` at the string's own length. -/
theorem be_numB (s : List Byte) : be s.length (numB s) = s := by
  induction s using List.reverseRecOn with
  | nil => rfl
  | append_singleton s v ih =>
    rw [List.length_append, List.length_singleton, be, numB_concat]
    have hv := v.isLt
    have h1 : (256 * numB s + v.toNat) / 256 = numB s := by omega
    have h2 : BitVec.ofNat 8 (256 * numB s + v.toNat) = v := by
      apply BitVec.eq_of_toNat_eq
      rw [BitVec.toNat_ofNat]
      omega
    rw [h1, h2, ih]

@[simp] theorem blockBytes_length (x : Block) : (blockBytes x).length = 16 := be_length _ _

@[simp] theorem codeBits_length (k : Code) : (codeBits k).length = 5 := rfl

@[simp] theorem byteBits_length (v : Byte) : (byteBits v).length = 8 := rfl

@[simp] theorem byteNumerals_length (v : Byte) : (byteNumerals v).length = 8 := rfl

theorem codeOfBits_codeBits : ∀ k : Code, codeOfBits (codeBits k) = k := by decide +kernel

theorem codeBits_codeOfBits : ∀ b4 b3 b2 b1 b0 : Bool, codeBits (codeOfBits [b4, b3, b2, b1, b0]) = [b4, b3, b2, b1, b0] := by
  decide +kernel

theorem byteOfBits_byteBits : ∀ v : Byte, byteOfBits (byteBits v) = v := by decide +kernel

theorem byteBits_byteOfBits : ∀ b7 b6 b5 b4 b3 b2 b1 b0 : Bool,
    byteBits (byteOfBits [b7, b6, b5, b4, b3, b2, b1, b0]) = [b7, b6, b5, b4, b3, b2, b1, b0] := by decide +kernel

theorem byteNumerals_eq_reverse (v : Byte) : byteNumerals v = (byteBits v).reverse := rfl

theorem num2_codeBits : ∀ k : Code, num2 (codeBits k) = k.toNat := by decide +kernel

theorem num2_byteBits : ∀ v : Byte, num2 (byteBits v) = v.toNat := by decide +kernel

end Sys2Proof.Machine
end

