-- ==== Sys2Proof/Laws/Memory.lean ====
section
/-! SUPPORT. The laws of byte memory: a write is read back, leaves every other byte alone, and keeps the canonical form. -/

namespace Sys2Proof.Machine

theorem Memory.lookup_insert_self (m : Memory) (j : Nat) (v : Byte) : Memory.lookup (Memory.insert m j v) j = some v := by
  induction m with
  | nil => simp [Memory.insert, Memory.lookup]
  | cons c m ih =>
    unfold Memory.insert
    split
    · simp [Memory.lookup]
    · split
      · simp [Memory.lookup]
      · have : c.1 ≠ j := by omega
        simp [Memory.lookup, this, ih]

theorem Memory.lookup_insert_other {m : Memory} {j k : Nat} {v : Byte} (h : k ≠ j) :
    Memory.lookup (Memory.insert m j v) k = Memory.lookup m k := by
  induction m with
  | nil => simp [Memory.insert, Memory.lookup, Ne.symm h]
  | cons c m ih =>
    unfold Memory.insert
    split
    · simp [Memory.lookup, Ne.symm h]
    · split
      · next hc => subst hc; simp [Memory.lookup, Ne.symm h]
      · simp [Memory.lookup, ih]

theorem Memory.erase_cons (c : Host.Cell) (m : Memory) (j : Nat) :
    Memory.erase (c :: m) j = if c.1 = j then Memory.erase m j else c :: Memory.erase m j := by
  by_cases h : c.1 = j <;> simp [Memory.erase, h]

theorem Memory.lookup_erase_self (m : Memory) (j : Nat) : Memory.lookup (Memory.erase m j) j = none := by
  induction m with
  | nil => rfl
  | cons c m ih => by_cases h : c.1 = j <;> simp [Memory.erase_cons, Memory.lookup, h, ih]

theorem Memory.lookup_erase_other {m : Memory} {j k : Nat} (h : k ≠ j) :
    Memory.lookup (Memory.erase m j) k = Memory.lookup m k := by
  induction m with
  | nil => rfl
  | cons c m ih =>
    by_cases hc : c.1 = j
    · have hk : c.1 ≠ k := fun e => h (by omega)
      simp [Memory.erase_cons, Memory.lookup, hc, ih, Ne.symm h]
    · simp [Memory.erase_cons, Memory.lookup, hc, ih]

/-- A write is read back. -/
@[simp] theorem Memory.read_write_self (dflt : Nat → Byte) (m : Memory) (j : Nat) (v : Byte) :
    Memory.read dflt (Memory.write dflt m j v) j = v := by
  unfold Memory.read Memory.write
  split
  · next h => simp [Memory.lookup_erase_self, h]
  · simp [Memory.lookup_insert_self]

/-- A write leaves every other byte alone. -/
theorem Memory.read_write_other {dflt : Nat → Byte} {m : Memory} {j k : Nat} {v : Byte} (h : k ≠ j) :
    Memory.read dflt (Memory.write dflt m j v) k = Memory.read dflt m k := by
  unfold Memory.read Memory.write
  split
  · simp [Memory.lookup_erase_other h]
  · simp [Memory.lookup_insert_other h]

theorem Memory.mem_insert {m : Memory} {j : Nat} {v : Byte} {c : Host.Cell} (h : c ∈ Memory.insert m j v) :
    c = (j, v) ∨ c ∈ m := by
  induction m with
  | nil => simpa [Memory.insert] using h
  | cons d m ih =>
    unfold Memory.insert at h
    split at h
    · simpa using h
    · split at h
      · rcases List.mem_cons.1 h with h | h
        · exact .inl h
        · exact .inr (List.mem_cons_of_mem _ h)
      · rcases List.mem_cons.1 h with h | h
        · exact .inr (by simp [h])
        · exact (ih h).imp id (List.mem_cons_of_mem _)

theorem Memory.insert_sorted {m : Memory} {j : Nat} {v : Byte} (h : m.Pairwise (fun c c' => c.1 < c'.1)) :
    (Memory.insert m j v).Pairwise (fun c c' => c.1 < c'.1) := by
  induction m with
  | nil => simp [Memory.insert]
  | cons d m ih =>
    obtain ⟨hd, hm⟩ := List.pairwise_cons.1 h
    unfold Memory.insert
    split
    · next hj =>
      refine List.pairwise_cons.2 ⟨fun c hc => ?_, h⟩
      rcases List.mem_cons.1 hc with rfl | hc
      · exact hj
      · exact Nat.lt_trans hj (hd c hc)
    · split
      · next hj => exact List.pairwise_cons.2 ⟨fun c hc => hj ▸ hd c hc, hm⟩
      · refine List.pairwise_cons.2 ⟨fun c hc => ?_, ih hm⟩
        rcases Memory.mem_insert hc with rfl | hc
        · show d.1 < j
          omega
        · exact hd c hc

/-- An index is listed after a write only if it was before or is the written one. -/
theorem Memory.mem_write {dflt : Nat → Byte} {m : Memory} {j : Nat} {v : Byte} {c : Host.Cell}
    (h : c ∈ Memory.write dflt m j v) : c = (j, v) ∨ c ∈ m := by
  unfold Memory.write at h
  split at h
  · exact .inr (List.mem_filter.1 h).1
  · exact Memory.mem_insert h

/-- A write keeps the canonical form. -/
theorem Memory.write_wf {dflt : Nat → Byte} {m : Memory} {j : Nat} {v : Byte} (h : Memory.wf dflt m) :
    Memory.wf dflt (Memory.write dflt m j v) := by
  unfold Memory.write
  split
  · exact ⟨h.1.filter _, fun c hc => h.2 c (List.mem_filter.1 hc).1⟩
  · next hv =>
    refine ⟨Memory.insert_sorted h.1, fun c hc => ?_⟩
    rcases Memory.mem_insert hc with rfl | hc
    · exact hv
    · exact h.2 c hc

theorem Memory.nil_wf (dflt : Nat → Byte) : Memory.wf dflt [] := ⟨List.Pairwise.nil, by simp⟩

theorem Memory.ofBytesFrom_indices (k : Nat) (out : List Byte) :
    (Memory.ofBytesFrom k out).map (fun c => c.1) = List.range' k out.length := by
  induction out generalizing k with
  | nil => rfl
  | cons v vs ih => simp [Memory.ofBytesFrom, ih, List.range'_succ]

/-- The listed indices of a byte string are 0, 1, ... in order. -/
theorem Memory.ofBytes_indices (out : List Byte) :
    (Memory.ofBytes out).map (fun c => c.1) = List.range out.length := by
  rw [Memory.ofBytes, Memory.ofBytesFrom_indices, List.range_eq_range']

theorem Memory.lookup_ofBytesFrom (k : Nat) (out : List Byte) (j : Nat) :
    Memory.lookup (Memory.ofBytesFrom k out) (k + j) = out[j]? := by
  induction out generalizing k j with
  | nil => rfl
  | cons v vs ih =>
    cases j with
    | zero => simp [Memory.ofBytesFrom, Memory.lookup]
    | succ j =>
      have := ih (k + 1) j
      rw [show k + 1 + j = k + (j + 1) by omega] at this
      simp [Memory.ofBytesFrom, Memory.lookup, this]

/-- A byte string is read back byte by byte. -/
@[simp] theorem Memory.lookup_ofBytes (out : List Byte) (j : Nat) : Memory.lookup (Memory.ofBytes out) j = out[j]? := by
  simpa [Memory.ofBytes] using Memory.lookup_ofBytesFrom 0 out j

end Sys2Proof.Machine
end

