-- ==== Sys2Proof/Laws/State.lean ====
section
/-! SUPPORT. What each named update of the state does to each field: one lemma per field per update. -/

namespace Sys2Proof.Machine

variable (s : State)

@[simp] theorem State.takeRequest_status (rest : List HostReq) : (s.takeRequest rest).status = s.status := rfl
@[simp] theorem State.takeRequest_errcode (rest : List HostReq) : (s.takeRequest rest).errcode = s.errcode := rfl
@[simp] theorem State.takeRequest_opreg (rest : List HostReq) : (s.takeRequest rest).opreg = s.opreg := rfl
@[simp] theorem State.takeRequest_key (rest : List HostReq) : (s.takeRequest rest).key = s.key := rfl
@[simp] theorem State.takeRequest_klen (rest : List HostReq) : (s.takeRequest rest).klen = s.klen := rfl
@[simp] theorem State.takeRequest_ilen (rest : List HostReq) : (s.takeRequest rest).ilen = s.ilen := rfl
@[simp] theorem State.takeRequest_olen (rest : List HostReq) : (s.takeRequest rest).olen = s.olen := rfl
@[simp] theorem State.takeRequest_ibuf (rest : List HostReq) : (s.takeRequest rest).ibuf = s.ibuf := rfl
@[simp] theorem State.takeRequest_obuf (rest : List HostReq) : (s.takeRequest rest).obuf = s.obuf := rfl
@[simp] theorem State.takeRequest_dp (rest : List HostReq) : (s.takeRequest rest).dp = s.dp := rfl
@[simp] theorem State.takeRequest_inbox (rest : List HostReq) : (s.takeRequest rest).inbox = rest := rfl
@[simp] theorem State.takeRequest_outbox (rest : List HostReq) : (s.takeRequest rest).outbox = s.outbox := rfl
@[simp] theorem State.takeRequest_free (rest : List HostReq) : (s.takeRequest rest).free = s.free := rfl
@[simp] theorem State.takeRequest_entropyDraws (rest : List HostReq) : (s.takeRequest rest).entropyDraws = s.entropyDraws := rfl
@[simp] theorem State.takeRequest_ibufSeed (rest : List HostReq) : (s.takeRequest rest).ibufSeed = s.ibufSeed := rfl

@[simp] theorem State.reply_status (r : Reply) : (s.reply r).status = s.status := rfl
@[simp] theorem State.reply_errcode (r : Reply) : (s.reply r).errcode = s.errcode := rfl
@[simp] theorem State.reply_opreg (r : Reply) : (s.reply r).opreg = s.opreg := rfl
@[simp] theorem State.reply_key (r : Reply) : (s.reply r).key = s.key := rfl
@[simp] theorem State.reply_klen (r : Reply) : (s.reply r).klen = s.klen := rfl
@[simp] theorem State.reply_ilen (r : Reply) : (s.reply r).ilen = s.ilen := rfl
@[simp] theorem State.reply_olen (r : Reply) : (s.reply r).olen = s.olen := rfl
@[simp] theorem State.reply_ibuf (r : Reply) : (s.reply r).ibuf = s.ibuf := rfl
@[simp] theorem State.reply_obuf (r : Reply) : (s.reply r).obuf = s.obuf := rfl
@[simp] theorem State.reply_dp (r : Reply) : (s.reply r).dp = s.dp := rfl
@[simp] theorem State.reply_inbox (r : Reply) : (s.reply r).inbox = s.inbox := rfl
@[simp] theorem State.reply_outbox (r : Reply) : (s.reply r).outbox = s.outbox ++ [r] := rfl
@[simp] theorem State.reply_free (r : Reply) : (s.reply r).free = s.free := rfl
@[simp] theorem State.reply_entropyDraws (r : Reply) : (s.reply r).entropyDraws = s.entropyDraws := rfl
@[simp] theorem State.reply_ibufSeed (r : Reply) : (s.reply r).ibufSeed = s.ibufSeed := rfl

@[simp] theorem State.takeFree_status : s.takeFree.status = s.status := rfl
@[simp] theorem State.takeFree_errcode : s.takeFree.errcode = s.errcode := rfl
@[simp] theorem State.takeFree_opreg : s.takeFree.opreg = s.opreg := rfl
@[simp] theorem State.takeFree_key : s.takeFree.key = s.key := rfl
@[simp] theorem State.takeFree_klen : s.takeFree.klen = s.klen := rfl
@[simp] theorem State.takeFree_ilen : s.takeFree.ilen = s.ilen := rfl
@[simp] theorem State.takeFree_olen : s.takeFree.olen = s.olen := rfl
@[simp] theorem State.takeFree_ibuf : s.takeFree.ibuf = s.ibuf := rfl
@[simp] theorem State.takeFree_obuf : s.takeFree.obuf = s.obuf := rfl
@[simp] theorem State.takeFree_dp : s.takeFree.dp = s.dp := rfl
@[simp] theorem State.takeFree_inbox : s.takeFree.inbox = s.inbox := rfl
@[simp] theorem State.takeFree_outbox : s.takeFree.outbox = s.outbox := rfl
@[simp] theorem State.takeFree_free : s.takeFree.free = s.free + 1 := rfl
@[simp] theorem State.takeFree_entropyDraws : s.takeFree.entropyDraws = s.entropyDraws := rfl
@[simp] theorem State.takeFree_ibufSeed : s.takeFree.ibufSeed = s.ibufSeed := rfl

@[simp] theorem State.takeEntropy_status : s.takeEntropy.status = s.status := rfl
@[simp] theorem State.takeEntropy_errcode : s.takeEntropy.errcode = s.errcode := rfl
@[simp] theorem State.takeEntropy_opreg : s.takeEntropy.opreg = s.opreg := rfl
@[simp] theorem State.takeEntropy_key : s.takeEntropy.key = s.key := rfl
@[simp] theorem State.takeEntropy_klen : s.takeEntropy.klen = s.klen := rfl
@[simp] theorem State.takeEntropy_ilen : s.takeEntropy.ilen = s.ilen := rfl
@[simp] theorem State.takeEntropy_olen : s.takeEntropy.olen = s.olen := rfl
@[simp] theorem State.takeEntropy_ibuf : s.takeEntropy.ibuf = s.ibuf := rfl
@[simp] theorem State.takeEntropy_obuf : s.takeEntropy.obuf = s.obuf := rfl
@[simp] theorem State.takeEntropy_dp : s.takeEntropy.dp = s.dp := rfl
@[simp] theorem State.takeEntropy_inbox : s.takeEntropy.inbox = s.inbox := rfl
@[simp] theorem State.takeEntropy_outbox : s.takeEntropy.outbox = s.outbox := rfl
@[simp] theorem State.takeEntropy_free : s.takeEntropy.free = s.free := rfl
@[simp] theorem State.takeEntropy_entropyDraws : s.takeEntropy.entropyDraws = s.entropyDraws + 1 := rfl
@[simp] theorem State.takeEntropy_ibufSeed : s.takeEntropy.ibufSeed = s.ibufSeed := rfl

@[simp] theorem State.writeKey_status (i : Nat) (v : Byte) : (s.writeKey i v).status = s.status := rfl
@[simp] theorem State.writeKey_errcode (i : Nat) (v : Byte) : (s.writeKey i v).errcode = s.errcode := rfl
@[simp] theorem State.writeKey_opreg (i : Nat) (v : Byte) : (s.writeKey i v).opreg = s.opreg := rfl
@[simp] theorem State.writeKey_key (i : Nat) (v : Byte) : (s.writeKey i v).key = s.key.setIfInBounds i v := rfl
@[simp] theorem State.writeKey_klen (i : Nat) (v : Byte) : (s.writeKey i v).klen = s.klen := rfl
@[simp] theorem State.writeKey_ilen (i : Nat) (v : Byte) : (s.writeKey i v).ilen = s.ilen := rfl
@[simp] theorem State.writeKey_olen (i : Nat) (v : Byte) : (s.writeKey i v).olen = s.olen := rfl
@[simp] theorem State.writeKey_ibuf (i : Nat) (v : Byte) : (s.writeKey i v).ibuf = s.ibuf := rfl
@[simp] theorem State.writeKey_obuf (i : Nat) (v : Byte) : (s.writeKey i v).obuf = s.obuf := rfl
@[simp] theorem State.writeKey_dp (i : Nat) (v : Byte) : (s.writeKey i v).dp = s.dp := rfl
@[simp] theorem State.writeKey_inbox (i : Nat) (v : Byte) : (s.writeKey i v).inbox = s.inbox := rfl
@[simp] theorem State.writeKey_outbox (i : Nat) (v : Byte) : (s.writeKey i v).outbox = s.outbox := rfl
@[simp] theorem State.writeKey_free (i : Nat) (v : Byte) : (s.writeKey i v).free = s.free := rfl
@[simp] theorem State.writeKey_entropyDraws (i : Nat) (v : Byte) : (s.writeKey i v).entropyDraws = s.entropyDraws := rfl
@[simp] theorem State.writeKey_ibufSeed (i : Nat) (v : Byte) : (s.writeKey i v).ibufSeed = s.ibufSeed := rfl

@[simp] theorem State.writeKlen_status (v : Byte) : (s.writeKlen v).status = s.status := rfl
@[simp] theorem State.writeKlen_errcode (v : Byte) : (s.writeKlen v).errcode = s.errcode := rfl
@[simp] theorem State.writeKlen_opreg (v : Byte) : (s.writeKlen v).opreg = s.opreg := rfl
@[simp] theorem State.writeKlen_key (v : Byte) : (s.writeKlen v).key = s.key := rfl
@[simp] theorem State.writeKlen_klen (v : Byte) : (s.writeKlen v).klen = v := rfl
@[simp] theorem State.writeKlen_ilen (v : Byte) : (s.writeKlen v).ilen = s.ilen := rfl
@[simp] theorem State.writeKlen_olen (v : Byte) : (s.writeKlen v).olen = s.olen := rfl
@[simp] theorem State.writeKlen_ibuf (v : Byte) : (s.writeKlen v).ibuf = s.ibuf := rfl
@[simp] theorem State.writeKlen_obuf (v : Byte) : (s.writeKlen v).obuf = s.obuf := rfl
@[simp] theorem State.writeKlen_dp (v : Byte) : (s.writeKlen v).dp = s.dp := rfl
@[simp] theorem State.writeKlen_inbox (v : Byte) : (s.writeKlen v).inbox = s.inbox := rfl
@[simp] theorem State.writeKlen_outbox (v : Byte) : (s.writeKlen v).outbox = s.outbox := rfl
@[simp] theorem State.writeKlen_free (v : Byte) : (s.writeKlen v).free = s.free := rfl
@[simp] theorem State.writeKlen_entropyDraws (v : Byte) : (s.writeKlen v).entropyDraws = s.entropyDraws := rfl
@[simp] theorem State.writeKlen_ibufSeed (v : Byte) : (s.writeKlen v).ibufSeed = s.ibufSeed := rfl

@[simp] theorem State.writeIbuf_status (j : Nat) (v : Byte) : (s.writeIbuf j v).status = s.status := rfl
@[simp] theorem State.writeIbuf_errcode (j : Nat) (v : Byte) : (s.writeIbuf j v).errcode = s.errcode := rfl
@[simp] theorem State.writeIbuf_opreg (j : Nat) (v : Byte) : (s.writeIbuf j v).opreg = s.opreg := rfl
@[simp] theorem State.writeIbuf_key (j : Nat) (v : Byte) : (s.writeIbuf j v).key = s.key := rfl
@[simp] theorem State.writeIbuf_klen (j : Nat) (v : Byte) : (s.writeIbuf j v).klen = s.klen := rfl
@[simp] theorem State.writeIbuf_ilen (j : Nat) (v : Byte) : (s.writeIbuf j v).ilen = s.ilen := rfl
@[simp] theorem State.writeIbuf_olen (j : Nat) (v : Byte) : (s.writeIbuf j v).olen = s.olen := rfl
@[simp] theorem State.writeIbuf_ibuf (j : Nat) (v : Byte) : (s.writeIbuf j v).ibuf = Memory.write s.ibufDefault s.ibuf j v := rfl
@[simp] theorem State.writeIbuf_obuf (j : Nat) (v : Byte) : (s.writeIbuf j v).obuf = s.obuf := rfl
@[simp] theorem State.writeIbuf_dp (j : Nat) (v : Byte) : (s.writeIbuf j v).dp = s.dp := rfl
@[simp] theorem State.writeIbuf_inbox (j : Nat) (v : Byte) : (s.writeIbuf j v).inbox = s.inbox := rfl
@[simp] theorem State.writeIbuf_outbox (j : Nat) (v : Byte) : (s.writeIbuf j v).outbox = s.outbox := rfl
@[simp] theorem State.writeIbuf_free (j : Nat) (v : Byte) : (s.writeIbuf j v).free = s.free := rfl
@[simp] theorem State.writeIbuf_entropyDraws (j : Nat) (v : Byte) : (s.writeIbuf j v).entropyDraws = s.entropyDraws := rfl
@[simp] theorem State.writeIbuf_ibufSeed (j : Nat) (v : Byte) : (s.writeIbuf j v).ibufSeed = s.ibufSeed := rfl

@[simp] theorem State.acceptCmd_status (w : Byte) : (s.acceptCmd w).status = 0x01#8 := rfl
@[simp] theorem State.acceptCmd_errcode (w : Byte) : (s.acceptCmd w).errcode = 0#8 := rfl
@[simp] theorem State.acceptCmd_opreg (w : Byte) : (s.acceptCmd w).opreg = w := rfl
@[simp] theorem State.acceptCmd_key (w : Byte) : (s.acceptCmd w).key = s.key := rfl
@[simp] theorem State.acceptCmd_klen (w : Byte) : (s.acceptCmd w).klen = s.klen := rfl
@[simp] theorem State.acceptCmd_ilen (w : Byte) : (s.acceptCmd w).ilen = s.ilen := rfl
@[simp] theorem State.acceptCmd_olen (w : Byte) : (s.acceptCmd w).olen = s.olen := rfl
@[simp] theorem State.acceptCmd_ibuf (w : Byte) : (s.acceptCmd w).ibuf = s.ibuf := rfl
@[simp] theorem State.acceptCmd_obuf (w : Byte) : (s.acceptCmd w).obuf = s.obuf := rfl
@[simp] theorem State.acceptCmd_dp (w : Byte) : (s.acceptCmd w).dp = s.dp := rfl
@[simp] theorem State.acceptCmd_inbox (w : Byte) : (s.acceptCmd w).inbox = s.inbox := rfl
@[simp] theorem State.acceptCmd_outbox (w : Byte) : (s.acceptCmd w).outbox = s.outbox := rfl
@[simp] theorem State.acceptCmd_free (w : Byte) : (s.acceptCmd w).free = s.free := rfl
@[simp] theorem State.acceptCmd_entropyDraws (w : Byte) : (s.acceptCmd w).entropyDraws = s.entropyDraws := rfl
@[simp] theorem State.acceptCmd_ibufSeed (w : Byte) : (s.acceptCmd w).ibufSeed = s.ibufSeed := rfl

@[simp] theorem State.succeed_status (out : List Byte) : (s.succeed out).status = 0x02#8 := rfl
@[simp] theorem State.succeed_errcode (out : List Byte) : (s.succeed out).errcode = 0#8 := rfl
@[simp] theorem State.succeed_opreg (out : List Byte) : (s.succeed out).opreg = s.opreg := rfl
@[simp] theorem State.succeed_key (out : List Byte) : (s.succeed out).key = s.key := rfl
@[simp] theorem State.succeed_klen (out : List Byte) : (s.succeed out).klen = s.klen := rfl
@[simp] theorem State.succeed_ilen (out : List Byte) : (s.succeed out).ilen = s.ilen := rfl
@[simp] theorem State.succeed_olen (out : List Byte) : (s.succeed out).olen = BitVec.ofNat 32 out.length := rfl
@[simp] theorem State.succeed_ibuf (out : List Byte) : (s.succeed out).ibuf = s.ibuf := rfl
@[simp] theorem State.succeed_obuf (out : List Byte) : (s.succeed out).obuf = Memory.ofBytes out := rfl
@[simp] theorem State.succeed_dp (out : List Byte) : (s.succeed out).dp = leftoverDatapath s.free := rfl
@[simp] theorem State.succeed_inbox (out : List Byte) : (s.succeed out).inbox = s.inbox := rfl
@[simp] theorem State.succeed_outbox (out : List Byte) : (s.succeed out).outbox = s.outbox := rfl
@[simp] theorem State.succeed_free (out : List Byte) : (s.succeed out).free = s.free + 1 := rfl
@[simp] theorem State.succeed_entropyDraws (out : List Byte) : (s.succeed out).entropyDraws = s.entropyDraws := rfl
@[simp] theorem State.succeed_ibufSeed (out : List Byte) : (s.succeed out).ibufSeed = s.ibufSeed := rfl

@[simp] theorem State.raiseError_status (c : Cause) : (s.raiseError c).status = 0x06#8 := rfl
@[simp] theorem State.raiseError_errcode (c : Cause) : (s.raiseError c).errcode = causeCode c := rfl
@[simp] theorem State.raiseError_opreg (c : Cause) : (s.raiseError c).opreg = s.opreg := rfl
@[simp] theorem State.raiseError_key (c : Cause) : (s.raiseError c).key = s.key := rfl
@[simp] theorem State.raiseError_klen (c : Cause) : (s.raiseError c).klen = s.klen := rfl
@[simp] theorem State.raiseError_ilen (c : Cause) : (s.raiseError c).ilen = s.ilen := rfl
@[simp] theorem State.raiseError_olen (c : Cause) : (s.raiseError c).olen = 0#32 := rfl
@[simp] theorem State.raiseError_ibuf (c : Cause) : (s.raiseError c).ibuf = s.ibuf := rfl
@[simp] theorem State.raiseError_obuf (c : Cause) : (s.raiseError c).obuf = [] := rfl
@[simp] theorem State.raiseError_dp (c : Cause) : (s.raiseError c).dp = leftoverDatapath s.free := rfl
@[simp] theorem State.raiseError_inbox (c : Cause) : (s.raiseError c).inbox = s.inbox := rfl
@[simp] theorem State.raiseError_outbox (c : Cause) : (s.raiseError c).outbox = s.outbox := rfl
@[simp] theorem State.raiseError_free (c : Cause) : (s.raiseError c).free = s.free + 1 := rfl
@[simp] theorem State.raiseError_entropyDraws (c : Cause) : (s.raiseError c).entropyDraws = s.entropyDraws := rfl
@[simp] theorem State.raiseError_ibufSeed (c : Cause) : (s.raiseError c).ibufSeed = s.ibufSeed := rfl

@[simp] theorem State.resetEvent_status : s.resetEvent.status = 0x00#8 := rfl
@[simp] theorem State.resetEvent_errcode : s.resetEvent.errcode = 0x00#8 := rfl
@[simp] theorem State.resetEvent_opreg : s.resetEvent.opreg = 0x00#8 := rfl
@[simp] theorem State.resetEvent_key : s.resetEvent.key = Vector.replicate 16 0x00#8 := rfl
@[simp] theorem State.resetEvent_klen : s.resetEvent.klen = 0x00#8 := rfl
@[simp] theorem State.resetEvent_ilen : s.resetEvent.ilen = 0#32 := rfl
@[simp] theorem State.resetEvent_olen : s.resetEvent.olen = 0#32 := rfl
@[simp] theorem State.resetEvent_ibuf : s.resetEvent.ibuf = [] := rfl
@[simp] theorem State.resetEvent_obuf : s.resetEvent.obuf = [] := rfl
@[simp] theorem State.resetEvent_dp : s.resetEvent.dp = Datapath.reset := rfl
@[simp] theorem State.resetEvent_inbox : s.resetEvent.inbox = s.inbox := rfl
@[simp] theorem State.resetEvent_outbox : s.resetEvent.outbox = s.outbox := rfl
@[simp] theorem State.resetEvent_free : s.resetEvent.free = s.free := rfl
@[simp] theorem State.resetEvent_entropyDraws : s.resetEvent.entropyDraws = s.entropyDraws := rfl
@[simp] theorem State.resetEvent_ibufSeed : s.resetEvent.ibufSeed = s.ibufSeed + 1 := rfl

theorem State.writeIlen_of_le {v : Len} (h : v.toNat ≤ Config.capIn) : s.writeIlen v = { s with ilen := v } := if_pos h

theorem State.writeIlen_of_gt {v : Len} (h : Config.capIn < v.toNat) : s.writeIlen v = s := if_neg (by omega)

@[simp] theorem State.writeIlen_status (v : Len) : (s.writeIlen v).status = s.status := by unfold State.writeIlen; split <;> rfl
@[simp] theorem State.writeIlen_errcode (v : Len) : (s.writeIlen v).errcode = s.errcode := by unfold State.writeIlen; split <;> rfl
@[simp] theorem State.writeIlen_opreg (v : Len) : (s.writeIlen v).opreg = s.opreg := by unfold State.writeIlen; split <;> rfl
@[simp] theorem State.writeIlen_key (v : Len) : (s.writeIlen v).key = s.key := by unfold State.writeIlen; split <;> rfl
@[simp] theorem State.writeIlen_klen (v : Len) : (s.writeIlen v).klen = s.klen := by unfold State.writeIlen; split <;> rfl
@[simp] theorem State.writeIlen_olen (v : Len) : (s.writeIlen v).olen = s.olen := by unfold State.writeIlen; split <;> rfl
@[simp] theorem State.writeIlen_ibuf (v : Len) : (s.writeIlen v).ibuf = s.ibuf := by unfold State.writeIlen; split <;> rfl
@[simp] theorem State.writeIlen_obuf (v : Len) : (s.writeIlen v).obuf = s.obuf := by unfold State.writeIlen; split <;> rfl
@[simp] theorem State.writeIlen_dp (v : Len) : (s.writeIlen v).dp = s.dp := by unfold State.writeIlen; split <;> rfl
@[simp] theorem State.writeIlen_inbox (v : Len) : (s.writeIlen v).inbox = s.inbox := by unfold State.writeIlen; split <;> rfl
@[simp] theorem State.writeIlen_outbox (v : Len) : (s.writeIlen v).outbox = s.outbox := by unfold State.writeIlen; split <;> rfl
@[simp] theorem State.writeIlen_free (v : Len) : (s.writeIlen v).free = s.free := by unfold State.writeIlen; split <;> rfl
@[simp] theorem State.writeIlen_entropyDraws (v : Len) : (s.writeIlen v).entropyDraws = s.entropyDraws := by unfold State.writeIlen; split <;> rfl
@[simp] theorem State.writeIlen_ibufSeed (v : Len) : (s.writeIlen v).ibufSeed = s.ibufSeed := by unfold State.writeIlen; split <;> rfl

end Sys2Proof.Machine
end

