-- ==== Sys2Proof/Laws/Exec.lean ====
section
/-! SUPPORT. What each shared operation can do, said once: the operand forms, the two completions, `exec`, the host's turn and
the step. -/

namespace Sys2Proof.Machine

theorem withInput_of_le {s : State} (h : s.ilen.toNat ≤ Config.capIn)
    (f : List Byte → Host.Outcome State Fault Refusal) : withInput s f = f s.inputBytes := if_pos h

theorem withInput_next {s t : State} {f : List Byte → Host.Outcome State Fault Refusal} (h : withInput s f = .next t) :
    s.ilen.toNat ≤ Config.capIn ∧ f s.inputBytes = .next t := by
  unfold withInput at h
  split at h
  · exact ⟨‹_›, h⟩
  · cases h

theorem keyCheck_length {s : State} (h : s.klen ≠ 16#8) : keyCheck s = some .keyLength := if_pos h

theorem keyCheck_of_length {s : State} (h : s.klen = 16#8) :
    keyCheck s = if Config.ciphKeyOk s.keyBlock then none else some .keyRejected := by
  unfold keyCheck
  rw [if_neg (by simp [h])]

theorem withKey_some {s : State} {c : Cause} (h : keyCheck s = some c)
    (f : Block → Host.Outcome State Fault Refusal) : withKey s f = .next (s.raiseError c) := by
  simp [withKey, h]

theorem withKey_none {s : State} (h : keyCheck s = none) (f : Block → Host.Outcome State Fault Refusal) :
    withKey s f = f s.keyBlock := by
  simp [withKey, h]

/-- A command whose key check raises an error ends in the error completion. -/
theorem exec_error {i : Instr} {s : State} {c : Cause} (h : commandError i s = some c) :
    exec i s = .next (s.raiseError c) := by
  unfold commandError at h
  split at h
  · next hk =>
    cases i <;> simp [keyedCommand] at hk <;>
      simp [exec, execEncrypt, execDecrypt, execRunenc, execRundec, withOptionalKey, hk, withKey_some h]
  · cases h

/-- A command that raises no error delivers the output of its rule. -/
theorem exec_success {i : Instr} {s : State} (h : commandError i s = none)
    (hl : i = .genkey ∨ s.ilen.toNat ≤ Config.capIn) :
    exec i s = .next ((s.afterDraws i).succeed (commandOutput i s)) := by
  unfold commandError at h
  cases i with
  | genkey => rfl
  | encode =>
    replace hl := hl.resolve_left (by simp)
    simp only [exec, execEncode, withInput_of_le hl]; rfl
  | decode =>
    replace hl := hl.resolve_left (by simp)
    simp only [exec, execDecode, withInput_of_le hl]; rfl
  | encrypt =>
    replace hl := hl.resolve_left (by simp)
    simp only [exec, execEncrypt, withKey_none (by simpa [keyedCommand] using h), withInput_of_le hl]; rfl
  | decrypt =>
    replace hl := hl.resolve_left (by simp)
    simp only [exec, execDecrypt, withKey_none (by simpa [keyedCommand] using h), withInput_of_le hl]; rfl
  | runenc k =>
    replace hl := hl.resolve_left (by simp)
    cases k
    · simp only [exec, execRunenc, withOptionalKey, Bool.false_eq_true, if_false, withInput_of_le hl]; rfl
    · simp only [exec, execRunenc, withOptionalKey, if_true, withKey_none (by simpa [keyedCommand] using h),
        withInput_of_le hl]; rfl
  | rundec k =>
    replace hl := hl.resolve_left (by simp)
    cases k
    · simp only [exec, execRundec, withOptionalKey, Bool.false_eq_true, if_false, withInput_of_le hl]; rfl
    · simp only [exec, execRundec, withOptionalKey, if_true, withKey_none (by simpa [keyedCommand] using h),
        withInput_of_le hl]; rfl

/-- A command that reads its input stops only when the input does not exist. -/
theorem exec_overrun {i : Instr} {s : State} (h : commandError i s = none) (hi : i ≠ .genkey)
    (hl : Config.capIn < s.ilen.toNat) : exec i s = .fault .ibufOverrun := by
  have hn : ¬ s.ilen.toNat ≤ Config.capIn := by omega
  unfold commandError at h
  cases i with
  | genkey => exact absurd rfl hi
  | encode => simp [exec, execEncode, withInput, hn]
  | decode => simp [exec, execDecode, withInput, hn]
  | encrypt => simp [exec, execEncrypt, withKey_none (by simpa [keyedCommand] using h), withInput, hn]
  | decrypt => simp [exec, execDecrypt, withKey_none (by simpa [keyedCommand] using h), withInput, hn]
  | runenc k =>
    cases k
    · simp [exec, execRunenc, withOptionalKey, withInput, hn]
    · simp [exec, execRunenc, withOptionalKey, withKey_none (by simpa [keyedCommand] using h), withInput, hn]
  | rundec k =>
    cases k
    · simp [exec, execRundec, withOptionalKey, withInput, hn]
    · simp [exec, execRundec, withOptionalKey, withKey_none (by simpa [keyedCommand] using h), withInput, hn]

/-- Everything a command can answer with a next state. -/
theorem exec_cases {i : Instr} {s t : State} (h : exec i s = .next t) :
    (∃ c, commandError i s = some c ∧ t = s.raiseError c) ∨
    (commandError i s = none ∧ (i = .genkey ∨ s.ilen.toNat ≤ Config.capIn) ∧
      t = (s.afterDraws i).succeed (commandOutput i s)) := by
  cases hc : commandError i s with
  | some c =>
    rw [exec_error hc] at h
    exact .inl ⟨c, rfl, (Host.Outcome.next.inj h).symm⟩
  | none =>
    by_cases hl : i = .genkey ∨ s.ilen.toNat ≤ Config.capIn
    · rw [exec_success hc hl] at h
      exact .inr ⟨rfl, hl, (Host.Outcome.next.inj h).symm⟩
    · obtain ⟨hi, hl⟩ := not_or.1 hl
      rw [exec_overrun hc hi (by omega)] at h
      cases h

/-! The flags each update leaves. -/

@[simp] theorem State.acceptCmd_busy (s : State) (w : Byte) : (s.acceptCmd w).busy = true := by
  simp [State.busy]

@[simp] theorem State.acceptCmd_done (s : State) (w : Byte) : (s.acceptCmd w).done = false := by
  simp [State.done]

@[simp] theorem State.acceptCmd_err (s : State) (w : Byte) : (s.acceptCmd w).err = false := by
  simp [State.err]

@[simp] theorem State.succeed_busy (s : State) (out : List Byte) : (s.succeed out).busy = false := by
  simp [State.busy]

@[simp] theorem State.succeed_done (s : State) (out : List Byte) : (s.succeed out).done = true := by
  simp [State.done]

@[simp] theorem State.succeed_err (s : State) (out : List Byte) : (s.succeed out).err = false := by
  simp [State.err]

@[simp] theorem State.raiseError_busy (s : State) (c : Cause) : (s.raiseError c).busy = false := by
  simp [State.busy]

@[simp] theorem State.raiseError_done (s : State) (c : Cause) : (s.raiseError c).done = true := by
  simp [State.done]

@[simp] theorem State.raiseError_err (s : State) (c : Cause) : (s.raiseError c).err = true := by
  simp [State.err]

@[simp] theorem State.resetEvent_busy (s : State) : s.resetEvent.busy = false := by
  simp [State.busy]

@[simp] theorem State.resetEvent_phase (s : State) : s.resetEvent.phase = .idle := by
  simp [State.phase]

/-- A successful completion delivers its output. -/
theorem State.succeed_delivers {s : State} {out : List Byte} (h : out.length < 2 ^ 32) :
    (s.succeed out).Delivers out := by
  have hl : (BitVec.ofNat 32 out.length).toNat = out.length := by
    rw [BitVec.toNat_ofNat]; exact Nat.mod_eq_of_lt h
  refine ⟨hl, fun j => ?_⟩
  simp only [State.obufByte, State.succeed_olen, State.succeed_obuf, Memory.lookup_ofBytes, hl]
  split
  · rfl
  · exact (List.getElem?_eq_none (by omega)).symm

theorem State.succeed_succeeded (s : State) (out : List Byte) : (s.succeed out).Succeeded := ⟨rfl, rfl⟩

theorem State.raiseError_failed (s : State) (c : Cause) : (s.raiseError c).Failed (causeCode c) :=
  ⟨rfl, rfl, rfl, fun j => by simp [State.obufByte]⟩

theorem State.succeed_frame (s : State) (i : Instr) (out : List Byte) :
    s.CommandFrame ((s.afterDraws i).succeed out) := ⟨rfl, rfl, rfl, fun _ => rfl, rfl, rfl, rfl⟩

theorem State.raiseError_frame (s : State) (c : Cause) : s.CommandFrame (s.raiseError c) :=
  ⟨rfl, rfl, rfl, fun _ => rfl, rfl, rfl, rfl⟩

/-- When no host transaction waits the host has no turn. -/
theorem hostTurn_nil {s : State} (h : s.inbox = []) : hostTurn s = none := by simp [hostTurn, h]

/-- An idle core performs the next transaction. -/
theorem hostTurn_idle {s : State} {r : HostReq} {rest : List HostReq} (h : s.busy = false) (hi : s.inbox = r :: rest) :
    hostTurn s = some (r.txn, rest) := by simp [hostTurn, h, hi]

/-- A busy core performs only RD_STATUS and RESET, and those only before its Complete step. -/
theorem hostTurn_busy {s : State} {r : HostReq} {rest : List HostReq} (h : s.busy = true) (hi : s.inbox = r :: rest) :
    hostTurn s = if r.early && r.txn.unheld then some (r.txn, rest) else none := by
  simp only [hostTurn, hi, h, Bool.true_and]
  cases r.early && r.txn.unheld <;> rfl

/-- The host's turn takes the first waiting transaction. -/
theorem hostTurn_some {s : State} {t : Txn} {rest : List HostReq} (h : hostTurn s = some (t, rest)) :
    ∃ r, s.inbox = r :: rest ∧ r.txn = t ∧ (s.busy = false ∨ (r.early = true ∧ t.unheld = true)) := by
  unfold hostTurn at h
  split at h
  · cases h
  · next r rest' hi =>
    split at h
    · cases h
    · next hb =>
      injection h with h
      injection h with h1 h2
      subst h1 h2
      refine ⟨r, hi, rfl, ?_⟩
      cases hbusy : s.busy
      · exact .inl rfl
      · simp [hbusy] at hb
        exact .inr hb

theorem step_host {s : State} {t : Txn} {rest : List HostReq} (h : hostTurn s = some (t, rest)) :
    step s = performTxn t (s.takeRequest rest) := by simp [step, h]

theorem step_complete {s : State} (h : hostTurn s = none) (hb : s.busy = true) : step s = complete s := by
  simp [step, h, hb]

theorem step_rest {s : State} (h : hostTurn s = none) (hb : s.busy = false) : step s = .next s := by
  simp [step, h, hb]

/-- Complete runs a legal word's command and ends an illegal word's in cause 3. -/
theorem complete_ok {s : State} {i : Instr} (h : decodeCmd s.opreg = .ok i) : complete s = exec i s := by
  simp [complete, h]

theorem complete_illegal {s : State} {e : IllegalWord} (h : decodeCmd s.opreg = .error e) :
    complete s = .next (s.raiseError .illegalCmd) := by
  simp [complete, h, execIllegal]

/-- Everything a Complete step can answer with a next state. -/
theorem complete_cases {s t : State} (h : complete s = .next t) :
    (∃ c, t = s.raiseError c) ∨
    (∃ i, (i = .genkey ∨ s.ilen.toNat ≤ Config.capIn) ∧ t = (s.afterDraws i).succeed (commandOutput i s)) := by
  cases hd : decodeCmd s.opreg with
  | error e =>
    rw [complete_illegal hd] at h
    exact .inl ⟨_, (Host.Outcome.next.inj h).symm⟩
  | ok i =>
    rw [complete_ok hd] at h
    rcases exec_cases h with ⟨c, -, ht⟩ | ⟨-, hl, ht⟩
    · exact .inl ⟨c, ht⟩
    · exact .inr ⟨i, hl, ht⟩

/-- Everything a transaction can answer with a next state. -/
theorem performTxn_cases {t : Txn} {s u : State} (h : performTxn t s = .next u) :
    (∃ i v, t = .wrKey i v ∧ i < 16 ∧ u = s.writeKey i v) ∨
    (∃ v, t = .wrKlen v ∧ u = s.writeKlen v) ∨
    (∃ v, t = .wrIlen v ∧ u = s.writeIlen v) ∨
    (∃ j v, t = .wrIbuf j v ∧ j < Config.capIn ∧ u = s.writeIbuf j v) ∨
    (∃ w, t = .wrCmd w ∧ u = s.acceptCmd w) ∨
    (t = .reset ∧ u = s.resetEvent) ∨
    (∃ r, u = s.reply r) ∨
    (∃ r, u = s.takeFree.reply r) := by
  cases t with
  | wrKey i v =>
    simp only [performTxn, txnWrKey, Txn.wf, decide_eq_true_eq] at h
    split at h
    · exact .inl ⟨i, v, rfl, ‹_›, (Host.Outcome.next.inj h).symm⟩
    · cases h
  | rdKey i =>
    simp only [performTxn, txnRdKey] at h
    split at h
    · exact .inr (.inr (.inr (.inr (.inr (.inr (.inl ⟨_, (Host.Outcome.next.inj h).symm⟩))))))
    · cases h
  | wrKlen v => exact .inr (.inl ⟨v, rfl, (Host.Outcome.next.inj h).symm⟩)
  | wrIlen v => exact .inr (.inr (.inl ⟨v, rfl, (Host.Outcome.next.inj h).symm⟩))
  | wrIbuf j v =>
    simp only [performTxn, txnWrIbuf, Txn.wf, decide_eq_true_eq] at h
    split at h
    · exact .inr (.inr (.inr (.inl ⟨j, v, rfl, ‹_›, (Host.Outcome.next.inj h).symm⟩)))
    · cases h
  | rdIbuf j =>
    simp only [performTxn, txnRdIbuf] at h
    split at h
    · exact .inr (.inr (.inr (.inr (.inr (.inr (.inl ⟨_, (Host.Outcome.next.inj h).symm⟩))))))
    · cases h
  | wrCmd w => exact .inr (.inr (.inr (.inr (.inl ⟨w, rfl, (Host.Outcome.next.inj h).symm⟩))))
  | rdObuf j =>
    simp only [performTxn, txnRdObuf] at h
    split at h
    · split at h
      · exact .inr (.inr (.inr (.inr (.inr (.inr (.inl ⟨_, (Host.Outcome.next.inj h).symm⟩))))))
      · exact .inr (.inr (.inr (.inr (.inr (.inr (.inr ⟨_, (Host.Outcome.next.inj h).symm⟩))))))
    · cases h
  | reset => exact .inr (.inr (.inr (.inr (.inr (.inl ⟨rfl, (Host.Outcome.next.inj h).symm⟩)))))
  | rdKlen => exact .inr (.inr (.inr (.inr (.inr (.inr (.inl ⟨_, (Host.Outcome.next.inj h).symm⟩))))))
  | rdIlen => exact .inr (.inr (.inr (.inr (.inr (.inr (.inl ⟨_, (Host.Outcome.next.inj h).symm⟩))))))
  | rdStatus => exact .inr (.inr (.inr (.inr (.inr (.inr (.inl ⟨_, (Host.Outcome.next.inj h).symm⟩))))))
  | rdErrcode => exact .inr (.inr (.inr (.inr (.inr (.inr (.inl ⟨_, (Host.Outcome.next.inj h).symm⟩))))))
  | rdOlen => exact .inr (.inr (.inr (.inr (.inr (.inr (.inl ⟨_, (Host.Outcome.next.inj h).symm⟩))))))

/-- Everything a step can answer with a next state: a host transaction, a Complete step, or an idle core holding its state. -/
theorem step_cases {s t : State} (h : step s = .next t) :
    (∃ x rest, hostTurn s = some (x, rest) ∧ performTxn x (s.takeRequest rest) = .next t) ∨
    (hostTurn s = none ∧ s.busy = true ∧ complete s = .next t) ∨
    (hostTurn s = none ∧ s.busy = false ∧ t = s) := by
  cases hh : hostTurn s with
  | some p => exact .inl ⟨p.1, p.2, rfl, by rw [← step_host (s := s) (t := p.1) (rest := p.2) hh]; exact h⟩
  | none =>
    cases hb : s.busy with
    | true => exact .inr (.inl ⟨rfl, rfl, by rw [← step_complete hh hb]; exact h⟩)
    | false =>
      rw [step_rest hh hb] at h
      exact .inr (.inr ⟨rfl, rfl, (Host.Outcome.next.inj h).symm⟩)

/-- A run takes its first step and goes on. -/
theorem core_run_next {s t : State} (k : Nat) (h : step s = .next t) :
    Host.Core.run Sys2Proof.core (k + 1) s = Host.Core.run Sys2Proof.core k t := by
  have h' : Sys2Proof.core.step s = .next t := h
  simp only [Host.Core.run]
  rw [h']

@[simp] theorem State.inputBytes_length (s : State) : s.inputBytes.length = s.ilen.toNat := by
  simp [State.inputBytes]

@[simp] theorem State.draw16_length (s : State) : s.draw16.length = 16 := be_length _ _

/-- The internal registers after a command have the sizes of R35 and R36, whatever they hold. -/
theorem State.datapathOk_of_clip {s : State} {d : Datapath} (h : s.dp = d.clip) : s.DatapathOk := by
  simp only [State.DatapathOk, h, Datapath.clip, List.length_take]
  exact ⟨by omega, by omega, by omega, Nat.mod_lt _ (Nat.pow_pos (by omega)), by omega⟩

/-- The bytes a host finds in IBUF after it moved an output there are that output. -/
theorem State.inputBytes_of_moved {t m : State} {out : List Byte} (hd : t.Delivers out) (hl : m.ilen = t.olen)
    (hb : ∀ j, j < t.olen.toNat → t.obufByte j = some (m.ibufByte j)) : m.inputBytes = out := by
  apply List.ext_getElem?
  intro j
  rw [← hd.2]
  unfold State.inputBytes
  rw [hl]
  by_cases hj : j < t.olen.toNat
  · simp [hj, hb j hj]
  · simp [hj, State.obufByte]

theorem Config.capIn_pos : 1 ≤ Config.capIn := Nat.succ_le_succ (Nat.zero_le _)

theorem Config.capIn_le : Config.capIn ≤ 536870911 := Config.capInLessOne.isLt

theorem Config.capOut_lt : Config.capOut < 2 ^ 32 := by
  have := Config.capIn_le
  unfold Config.capOut
  omega

theorem Config.capIn_le_capOut : Config.capIn ≤ Config.capOut := by
  unfold Config.capOut
  omega

end Sys2Proof.Machine
end

