-- ==== Sys2Proof/Laws/Gearbox.lean ====
section
/-! SUPPORT. The small laws of the gearbox's functions. -/

namespace Sys2Proof.Machine

@[simp] theorem bits5_nil : bits5 [] = [] := rfl

@[simp] theorem bits5_cons (k : Code) (cs : List Code) : bits5 (k :: cs) = codeBits k ++ bits5 cs := rfl

@[simp] theorem bits5_length (cs : List Code) : (bits5 cs).length = 5 * cs.length := by
  induction cs with
  | nil => rfl
  | cons k cs ih => rw [bits5_cons, List.length_append, ih, codeBits_length, List.length_cons]; omega

/-- A whole group of five bits is one code. -/
theorem codesOfBits_codeBits_append (k : Code) (x : List Bool) :
    codesOfBits (codeBits k ++ x) = k :: codesOfBits x := by
  show codeOfBits (codeBits k) :: codesOfBits x = _
  rw [codeOfBits_codeBits]

/-- The codes of a code stream are read back, whatever follows them. -/
theorem codesOfBits_bits5_append (cs : List Code) (x : List Bool) :
    codesOfBits (bits5 cs ++ x) = cs ++ codesOfBits x := by
  induction cs with
  | nil => rfl
  | cons k cs ih => rw [bits5_cons, List.append_assoc, codesOfBits_codeBits_append, ih, List.cons_append]

/-- A whole group of eight bits is one byte. -/
theorem bytesOfBits_byteBits_append (v : Byte) (x : List Bool) :
    bytesOfBits (byteBits v ++ x) = v :: bytesOfBits x := by
  show byteOfBits (byteBits v) :: bytesOfBits x = _
  rw [byteOfBits_byteBits]

/-- A group of eight bits at the front of a stream, taken by its bits. -/
theorem exists_eight_of_length {x : List Bool} (h : 8 ≤ x.length) :
    ∃ b7 b6 b5 b4 b3 b2 b1 b0 r, x = b7 :: b6 :: b5 :: b4 :: b3 :: b2 :: b1 :: b0 :: r := by
  match x, h with
  | b7 :: b6 :: b5 :: b4 :: b3 :: b2 :: b1 :: b0 :: r, _ => exact ⟨_, _, _, _, _, _, _, _, _, rfl⟩

/-- A group of five bits at the front of a stream, taken by its bits. -/
theorem exists_five_of_length {x : List Bool} (h : 5 ≤ x.length) :
    ∃ b4 b3 b2 b1 b0 r, x = b4 :: b3 :: b2 :: b1 :: b0 :: r := by
  match x, h with
  | b4 :: b3 :: b2 :: b1 :: b0 :: r, _ => exact ⟨_, _, _, _, _, _, rfl⟩

theorem bytesOfBits_short {x : List Bool} (h : x.length < 8) : bytesOfBits x = [] := by
  match x, h with
  | [], _ => rfl
  | [_], _ => rfl
  | [_, _], _ => rfl
  | [_, _, _], _ => rfl
  | [_, _, _, _], _ => rfl
  | [_, _, _, _, _], _ => rfl
  | [_, _, _, _, _, _], _ => rfl
  | [_, _, _, _, _, _, _], _ => rfl
  | _ :: _ :: _ :: _ :: _ :: _ :: _ :: _ :: _, h => simp only [List.length_cons] at h; omega

theorem codesOfBits_short {x : List Bool} (h : x.length < 5) : codesOfBits x = [] := by
  match x, h with
  | [], _ => rfl
  | [_], _ => rfl
  | [_, _], _ => rfl
  | [_, _, _], _ => rfl
  | [_, _, _, _], _ => rfl
  | _ :: _ :: _ :: _ :: _ :: _, h => simp only [List.length_cons] at h; omega

/-- The number of whole bytes of a bit stream. -/
theorem bytesOfBits_length (x : List Bool) : (bytesOfBits x).length = x.length / 8 := by
  induction hn : x.length using Nat.strongRecOn generalizing x with
  | _ n ih =>
    subst hn
    by_cases h : x.length < 8
    · rw [bytesOfBits_short h, List.length_nil]; omega
    · obtain ⟨b7, b6, b5, b4, b3, b2, b1, b0, r, rfl⟩ := exists_eight_of_length (by omega : 8 ≤ x.length)
      have := ih r.length (by simp only [List.length_cons]; omega) r rfl
      simp only [bytesOfBits, List.length_cons, this]
      omega

/-- The number of whole codes of a bit stream. -/
theorem codesOfBits_length (x : List Bool) : (codesOfBits x).length = x.length / 5 := by
  induction hn : x.length using Nat.strongRecOn generalizing x with
  | _ n ih =>
    subst hn
    by_cases h : x.length < 5
    · rw [codesOfBits_short h, List.length_nil]; omega
    · obtain ⟨b4, b3, b2, b1, b0, r, rfl⟩ := exists_five_of_length (by omega : 5 ≤ x.length)
      have := ih r.length (by simp only [List.length_cons]; omega) r rfl
      simp only [codesOfBits, List.length_cons, this]
      omega

/-- Whole bytes give their bits back. -/
theorem byteBits_bytesOfBits {x : List Bool} (h : x.length % 8 = 0) : (bytesOfBits x).flatMap byteBits = x := by
  induction hn : x.length using Nat.strongRecOn generalizing x with
  | _ n ih =>
    subst hn
    by_cases h8 : x.length < 8
    · have : x = [] := List.length_eq_zero_iff.1 (by omega)
      subst this; rfl
    · obtain ⟨b7, b6, b5, b4, b3, b2, b1, b0, r, rfl⟩ := exists_eight_of_length (by omega : 8 ≤ x.length)
      simp only [List.length_cons] at h
      simp only [bytesOfBits, List.flatMap_cons, byteBits_byteOfBits, ih r.length (by simp only [List.length_cons]; omega)
        (by omega) rfl, List.cons_append, List.nil_append]

/-- Whole codes give their bits back. -/
theorem bits5_codesOfBits {x : List Bool} (h : x.length % 5 = 0) : bits5 (codesOfBits x) = x := by
  induction hn : x.length using Nat.strongRecOn generalizing x with
  | _ n ih =>
    subst hn
    by_cases h5 : x.length < 5
    · have : x = [] := List.length_eq_zero_iff.1 (by omega)
      subst this; rfl
    · obtain ⟨b4, b3, b2, b1, b0, r, rfl⟩ := exists_five_of_length (by omega : 5 ≤ x.length)
      simp only [List.length_cons] at h
      simp only [codesOfBits, bits5_cons, codeBits_codeOfBits, ih r.length (by simp only [List.length_cons]; omega)
        (by omega) rfl, List.cons_append, List.nil_append]

theorem bytesOfBits_byteBits (b : List Byte) : bytesOfBits (b.flatMap byteBits) = b := by
  induction b with
  | nil => rfl
  | cons v b ih => rw [List.flatMap_cons, bytesOfBits_byteBits_append, ih]

theorem byteBits_flatMap_length (b : List Byte) : (b.flatMap byteBits).length = 8 * b.length := by
  induction b with
  | nil => rfl
  | cons v b ih => rw [List.flatMap_cons, List.length_append, ih, byteBits_length, List.length_cons]; omega

/-- The bits of the packed bytes are the bits of the codes and the pad. -/
theorem byteBits_pack5 (cs : List Code) :
    (pack5 cs).flatMap byteBits = bits5 cs ++ List.replicate (padBits cs.length) false := by
  refine byteBits_bytesOfBits ?_
  rw [List.length_append, bits5_length, List.length_replicate]
  simp only [padBits, packedLen, ceilDiv]
  omega

theorem pack5_length (cs : List Code) : (pack5 cs).length = packedLen cs.length := by
  rw [pack5, bytesOfBits_length, List.length_append, bits5_length, List.length_replicate]
  simp only [padBits, packedLen, ceilDiv]
  omega

theorem unpack5_length (b : List Byte) : (unpack5 b).length = unpackedLen b.length := by
  rw [unpack5, codesOfBits_length, byteBits_flatMap_length]; rfl

theorem enc_length (t : List Byte) : (enc t).length = packedLen t.length := by
  rw [enc, pack5_length, List.length_map]

theorem dec_length (unk : Byte) (b : List Byte) : (dec unk b).length = unpackedLen b.length := by
  rw [dec, List.length_map, unpack5_length]

end Sys2Proof.Machine
end

