-- ==== Sys2Proof/Laws/Feistel.lean ====
section
/-! SUPPORT. The small laws of the Feistel engine's functions. -/

namespace Sys2Proof.Machine

theorem bitsLe_length (buf : List Byte) : (bitsLe buf).length = 8 * buf.length := by
  induction buf with
  | nil => rfl
  | cons v buf ih =>
    rw [bitsLe, List.flatMap_cons, List.length_append, byteNumerals_length, ← bitsLe, ih, List.length_cons]; omega

theorem bytesLe_short {x : List Bool} (h : x.length < 8) : bytesLe x = [] := by
  match x, h with
  | [], _ => rfl
  | [_], _ => rfl
  | [_, _], _ => rfl
  | [_, _, _], _ => rfl
  | [_, _, _, _], _ => rfl
  | [_, _, _, _, _], _ => rfl
  | [_, _, _, _, _, _], _ => rfl
  | [_, _, _, _, _, _, _], _ => rfl
  | _ :: _ :: _ :: _ :: _ :: _ :: _ :: _ :: _, h => simp only [List.length_cons] at h; omega

theorem bytesLe_length (x : List Bool) : (bytesLe x).length = x.length / 8 := by
  induction hn : x.length using Nat.strongRecOn generalizing x with
  | _ n ih =>
    subst hn
    by_cases h : x.length < 8
    · rw [bytesLe_short h, List.length_nil]; omega
    · obtain ⟨b7, b6, b5, b4, b3, b2, b1, b0, r, rfl⟩ := exists_eight_of_length (by omega : 8 ≤ x.length)
      have := ih r.length (by simp only [List.length_cons]; omega) r rfl
      simp only [bytesLe, List.length_cons, this]
      omega

/-- Eight numerals are one byte. -/
theorem bytesLe_byteNumerals_append (v : Byte) (x : List Bool) : bytesLe (byteNumerals v ++ x) = v :: bytesLe x := by
  show byteOfBits (byteBits v) :: bytesLe x = _
  rw [byteOfBits_byteBits]

theorem subMod_lt (a y m : Nat) : subMod a y m < 2 ^ m := by
  have hp : (0 : Int) < ((2 ^ m : Nat) : Int) := by exact_mod_cast Nat.two_pow_pos m
  have h0 := Int.emod_nonneg ((a : Int) - y) hp.ne'
  have h1 := Int.emod_lt_of_pos ((a : Int) - y) hp
  unfold subMod
  omega

/-- Subtracting what was added gives the number back. -/
theorem subMod_add {a y m : Nat} (h : a < 2 ^ m) : subMod ((a + y) % 2 ^ m) y m = a := by
  have hc : (((a + y) % 2 ^ m : Nat) : Int) = ((a : Int) + y) % ((2 ^ m : Nat) : Int) := by push_cast; rfl
  rw [subMod, hc, Int.emod_sub_emod, add_sub_cancel_right, Int.emod_eq_of_lt (by omega) (by exact_mod_cast h),
    Int.toNat_natCast]

/-- Adding what was subtracted gives the number back. -/
theorem add_subMod {a y m : Nat} (h : a < 2 ^ m) : (subMod a y m + y) % 2 ^ m = a := by
  have hp : (0 : Int) < ((2 ^ m : Nat) : Int) := by exact_mod_cast Nat.two_pow_pos m
  have h0 := Int.emod_nonneg ((a : Int) - y) hp.ne'
  have hs : ((subMod a y m : Nat) : Int) = ((a : Int) - y) % ((2 ^ m : Nat) : Int) := by
    unfold subMod; exact Int.toNat_of_nonneg h0
  have : (((subMod a y m + y) % 2 ^ m : Nat) : Int) = (a : Int) := by
    rw [Int.natCast_emod, Int.natCast_add, hs, Int.emod_add_emod, sub_add_cancel,
      Int.emod_eq_of_lt (by omega) (by exact_mod_cast h)]
  exact_mod_cast this

/-- The halves of a run keep their lengths and swap them in every round; in the hardware both are 4L (R146). -/
theorem encRound_lengths {ciph : Block → Block → Block} {k : Block} {n i : Nat} {ab : List Bool × List Bool} :
    (encRound ciph k n i ab).1.length = ab.2.length ∧ (encRound ciph k n i ab).2.length = roundLen n i :=
  ⟨rfl, str2_length _ _⟩

theorem decRound_lengths {ciph : Block → Block → Block} {k : Block} {n i : Nat} {ab : List Bool × List Bool} :
    (decRound ciph k n i ab).1.length = roundLen n i ∧ (decRound ciph k n i ab).2.length = ab.1.length :=
  ⟨str2_length _ _, rfl⟩

/-- A decryption round undoes the encryption round of the same index. -/
theorem decRound_encRound {ciph : Block → Block → Block} {k : Block} {n i : Nat} {ab : List Bool × List Bool}
    (h : ab.1.length = roundLen n i) : decRound ciph k n i (encRound ciph k n i ab) = ab := by
  obtain ⟨a, b⟩ := ab
  replace h : a.length = roundLen n i := h
  simp only [decRound, encRound, num2_str2, Nat.mod_mod]
  rw [subMod_add (by rw [← h]; exact num2_lt a), ← h, str2_num2]

/-- An encryption round undoes the decryption round of the same index. -/
theorem encRound_decRound {ciph : Block → Block → Block} {k : Block} {n i : Nat} {ab : List Bool × List Bool}
    (h : ab.2.length = roundLen n i) : encRound ciph k n i (decRound ciph k n i ab) = ab := by
  obtain ⟨a, b⟩ := ab
  replace h : b.length = roundLen n i := h
  simp only [decRound, encRound, num2_str2]
  rw [Nat.mod_eq_of_lt (subMod_lt _ _ _), add_subMod (by rw [← h]; exact num2_lt b), ← h, str2_num2]

theorem roundLen_bytes (l i : Nat) : roundLen (8 * l) i = 4 * l := by
  unfold roundLen fpeV fpeU
  split <;> omega

@[simp] theorem pBytes_length (n : Nat) : (pBytes n).length = 16 := by simp [pBytes]

theorem qBytes_length (n i : Nat) (h : List Bool) : (qBytes n i h).length = fpeZ n + 1 + fpeB n := by
  simp only [qBytes, List.length_append, List.length_replicate, be_length]

theorem blocksOf_length (s : List Byte) : (blocksOf s).length = s.length / 16 := by simp [blocksOf]

/-- The block strings of a round are the block P and then the blocks of Q. -/
theorem blocksOf_append {s r : List Byte} (h : s.length = 16) : blocksOf (s ++ r) = blockOf s :: blocksOf r := by
  unfold blocksOf
  rw [List.length_append, h, show (16 + r.length) / 16 = r.length / 16 + 1 by omega, List.range_succ_eq_map,
    List.map_cons, List.map_map]
  congr 1
  · rw [Nat.mul_zero, List.drop_zero, ← h, List.take_left]
  · refine List.map_congr_left fun j _ => ?_
    rw [Function.comp_apply, show 16 * Nat.succ j = s.length + 16 * j by omega, List.drop_append,
      List.drop_eq_nil_of_le (by omega), Nat.add_sub_cancel_left, List.nil_append]

end Sys2Proof.Machine
end

