-- ==== Sys2Proof/Laws/PerInstr.lean ====
section
/-! SUPPORT. What holds of the word of every command, one lemma per constructor of `Instr` (spec/30_encoding.md R70, R71,
R74). -/

namespace Sys2Proof.Laws.WordFields

/-- The word of a command has Z = 0, the command's K and OP, and is legal. -/
def Statement (i : Instr) : Prop :=
  fieldZ (encodeWord i) = 0#4 ∧ fieldK (encodeWord i) = keyFlag i ∧ fieldOp (encodeWord i) = opNumber i ∧ i.wf = true

theorem encode : Statement .encode := by unfold Statement; decide

theorem decode : Statement .decode := by unfold Statement; decide

theorem encrypt : Statement .encrypt := by unfold Statement; decide

theorem decrypt : Statement .decrypt := by unfold Statement; decide

theorem runenc (k : Bool) : Statement (.runenc k) := by unfold Statement; revert k; decide

theorem rundec (k : Bool) : Statement (.rundec k) := by unfold Statement; revert k; decide

theorem genkey : Statement .genkey := by unfold Statement; decide

end Sys2Proof.Laws.WordFields
end

