-- ==== Sys2Proof/Laws/Sequencer.lean ====
section
/-! SUPPORT. The gearbox accumulator as a number, and a gearbox group as a byte or a code. -/

namespace Sys2Proof.Machine

theorem lowBits_toNat {acc : BitVec 12} {n : Nat} (h : n ≤ 12) : (lowBits acc n).toNat = acc.toNat % 2 ^ n := by
  have h2 : 2 ^ n ≤ 2 ^ 12 := Nat.pow_le_pow_right (by omega) h
  have h3 := Nat.two_pow_pos n
  rw [lowBits, BitVec.toNat_and, BitVec.toNat_ofNat, Nat.mod_eq_of_lt (by omega), Nat.and_two_pow_sub_one_eq_mod]

/-- Shifting a code or a byte into an accumulator that has room for it. -/
theorem shiftIn_toNat {w : Nat} (acc : BitVec 12) (k : BitVec w) (hw : w ≤ 12) (h : acc.toNat < 2 ^ (12 - w)) :
    ((acc <<< w) ||| k.setWidth 12).toNat = acc.toNat * 2 ^ w + k.toNat := by
  have hk := k.isLt
  have h2 : 2 ^ w ≤ 2 ^ 12 := Nat.pow_le_pow_right (by omega) hw
  have h3 : acc.toNat * 2 ^ w < 2 ^ 12 := by
    calc acc.toNat * 2 ^ w < 2 ^ (12 - w) * 2 ^ w := Nat.mul_lt_mul_of_pos_right h (Nat.two_pow_pos w)
      _ = 2 ^ 12 := by rw [← pow_add]; congr 1; omega
  rw [BitVec.toNat_or, BitVec.toNat_shiftLeft, BitVec.toNat_setWidth, Nat.shiftLeft_eq, Nat.mod_eq_of_lt h3,
    Nat.mod_eq_of_lt (by omega), ← Nat.shiftLeft_eq, ← Nat.shiftLeft_add_eq_or_of_lt hk, Nat.shiftLeft_eq]

theorem bytesOfBits_append {x : List Bool} (h : x.length = 8) (r : List Bool) :
    bytesOfBits (x ++ r) = byteOfBits x :: bytesOfBits r := by
  obtain ⟨b7, b6, b5, b4, b3, b2, b1, b0, r', rfl⟩ := exists_eight_of_length (by omega : 8 ≤ x.length)
  have : r' = [] := List.length_eq_zero_iff.1 (by simp only [List.length_cons] at h; omega)
  subst this
  rfl

theorem codesOfBits_append {x : List Bool} (h : x.length = 5) (r : List Bool) :
    codesOfBits (x ++ r) = codeOfBits x :: codesOfBits r := by
  obtain ⟨b4, b3, b2, b1, b0, r', rfl⟩ := exists_five_of_length (by omega : 5 ≤ x.length)
  have : r' = [] := List.length_eq_zero_iff.1 (by simp only [List.length_cons] at h; omega)
  subst this
  rfl

end Sys2Proof.Machine
end

