-- ==== Sys2Proof/Tests/Slice0.lean ====
section
/-! SUPPORT. Small tests. Expected values are those of spec/95_test_vectors.md (the vector is named) or of the rule named. The theorems
whose names end in `_met` are the witnesses: each shows states and operands that meet the hypotheses of the obligation it names. -/

open Sys2Proof Sys2Proof.Machine

namespace Sys2Proof.Tests

/-- An idle core after reset with one transaction waiting. -/
def idle (t : Txn) : State := { State.reset with inbox := [⟨t, false⟩] }

theorem idle_busy (t : Txn) : (idle t).busy = false := by
  show (0x00#8 : Byte).getLsbD 0 = false
  decide

/-- A core that has just accepted a command word, with the given requests waiting. -/
def busyOn (w : Byte) (reqs : List HostReq) : State := { State.reset.acceptCmd w with inbox := reqs }

/-- A core with the given input loaded. -/
def loaded (bs : List Byte) : State := { State.reset with ibuf := Memory.ofBytes bs, ilen := BitVec.ofNat 32 bs.length }

/-- A core with a key of the given length loaded and an empty input. -/
def keyed (n : Byte) : State := { State.reset with klen := n }

/-- A core with CAP_IN bytes of input and a key of the given length. -/
def full (n : Byte) : State := { State.reset with klen := n, ilen := BitVec.ofNat 32 Config.capIn }

/-- An idle core whose last command delivered the byte 0x61. -/
def delivered (reqs : List HostReq) : State :=
  { State.reset with status := 0x02#8, olen := 1#32, obuf := [(0, 0x61#8)], inbox := reqs }

/-- CIPH_XOR and CIPH_ADD of spec/95_test_vectors.md. -/
def ciphXor (k x : Block) : Block := x ^^^ k

def ciphAdd (k x : Block) : Block :=
  blockOf ((List.range 16).map (fun j => (blockBytes x)[j]! + (blockBytes k)[j]! + BitVec.ofNat 8 j))

/-- The key K1. -/
def k1 : Block := 0x000102030405060708090A0B0C0D0E0F#128

/-! ## Decoding: words written out from the fields of R70 and R71 -/

theorem test_decode_encode : decodeCmd 0b00000000#8 = .ok .encode := by decide

theorem test_decode_decode : decodeCmd 0b00000001#8 = .ok .decode := by decide

theorem test_decode_encrypt : decodeCmd 0b00000010#8 = .ok .encrypt := by decide

theorem test_decode_decrypt : decodeCmd 0b00000011#8 = .ok .decrypt := by decide

theorem test_decode_runenc : decodeCmd 0b00000100#8 = .ok (.runenc false) ∧ decodeCmd 0b00001100#8 = .ok (.runenc true) := by decide

theorem test_decode_rundec : decodeCmd 0b00000101#8 = .ok (.rundec false) ∧ decodeCmd 0b00001101#8 = .ok (.rundec true) := by decide

theorem test_decode_genkey : decodeCmd 0b00000110#8 = .ok .genkey := by decide

/-- R75: a set bit of Z, OP = 7, and K on a command that has no K. -/
theorem test_decode_illegal :
    decodeCmd 0b00010000#8 = .error .reservedBits ∧ decodeCmd 0b10000100#8 = .error .reservedBits ∧
    decodeCmd 0b00000111#8 = .error .noOperation ∧ decodeCmd 0b00001111#8 = .error .noOperation ∧
    decodeCmd 0b00001010#8 = .error .keyFlag ∧ decodeCmd 0b00001110#8 = .error .keyFlag := by decide

theorem test_decode_table_word :
    decodeTableWord 8 0x0C = some (.runenc true) ∧ decodeTableWord 8 0x06 = some .genkey ∧ decodeTableWord 8 0x0A = none := by
  decide

/-! ## Well-formedness: an ill-formed word or index for each check -/

theorem test_wf_reserved_bits_refused : wordLegal 0x10#8 = false ∧ wordLegal 0x80#8 = false := by decide

theorem test_wf_no_operation_refused : wordLegal 0x07#8 = false ∧ wordLegal 0x0F#8 = false := by decide

theorem test_wf_key_flag_refused : wordLegal 0x08#8 = false ∧ wordLegal 0x0E#8 = false := by decide

theorem test_wf_command : (Instr.runenc true).wf = true ∧ Instr.genkey.wf = true := by decide

theorem test_wf_key_index_refused :
    (Txn.wrKey 16 0#8).wf = false ∧ (Txn.rdKey 16).wf = false ∧ (Txn.rdKey 15).wf = true := by decide

theorem test_wf_ibuf_index_refused :
    (Txn.wrIbuf Config.capIn 0#8).wf = false ∧ (Txn.rdIbuf Config.capIn).wf = false ∧ (Txn.rdIbuf 0).wf = true := by
  have := Config.capIn_pos
  simp [Txn.wf]
  omega

theorem test_wf_obuf_index_refused : (Txn.rdObuf Config.capOut).wf = false ∧ (Txn.rdObuf 15).wf = true := by
  simp [Txn.wf, Config.capOut]

/-! ## Functions -/

/-- M1. -/
theorem test_s2c :
    ([0x61#8, 0x5A#8, 0x6D#8, 0x20#8, 0x2C#8, 0x2E#8, 0x3A#8, 0x0A#8, 0x40#8, 0x5B#8, 0x60#8, 0x7B#8, 0xFF#8].map s2c) =
      [0#5, 25#5, 12#5, 26#5, 27#5, 28#5, 29#5, 30#5, 31#5, 31#5, 31#5, 31#5, 31#5] := by decide

/-- M2, with UNK_CHAR = 0x3F. -/
theorem test_c2s :
    ([0#5, 12#5, 25#5, 26#5, 27#5, 28#5, 29#5, 30#5, 31#5].map (c2s 0x3F#8)) =
      [0x61#8, 0x6D#8, 0x7A#8, 0x20#8, 0x2C#8, 0x2E#8, 0x3A#8, 0x0A#8, 0x3F#8] := by decide

/-- G1. -/
theorem test_pack5 :
    pack5 [0#5, 1#5, 2#5, 3#5, 4#5, 5#5, 6#5, 7#5, 8#5] = [0x00#8, 0x44#8, 0x32#8, 0x14#8, 0xC7#8, 0x40#8] ∧
    pack5 [0#5, 31#5, 1#5] = [0x07#8, 0xC2#8] := by decide

/-- G2. -/
theorem test_unpack5 :
    unpack5 [0x00#8, 0x44#8, 0x32#8, 0x00#8] = [0#5, 1#5, 2#5, 3#5, 4#5, 0#5] ∧ unpack5 [0x07#8] = [0#5] ∧
    unpack5 [0x00#8, 0x7F#8] = [0#5, 1#5, 31#5] := by decide

/-- G3: "Hello" and back. -/
theorem test_enc_dec :
    enc [0x48#8, 0x65#8, 0x6C#8, 0x6C#8, 0x6F#8] = [0x39#8, 0x16#8, 0xB7#8, 0x00#8] ∧
    dec 0x3F#8 [0x39#8, 0x16#8, 0xB7#8, 0x00#8] = [0x68#8, 0x65#8, 0x6C#8, 0x6C#8, 0x6F#8, 0x61#8] := by decide

/-- G6, on the first four codes of "hello": ACC, CNT and what was emitted. -/
theorem test_packer_trace :
    let d0 := Datapath.reset.clearGearbox .mapPack
    let r1 := packCode d0 7#5
    let r2 := packCode r1.1 4#5
    let r3 := packCode r2.1 11#5
    let r4 := packCode r3.1 11#5
    (r1.1.acc, r1.1.cnt.val, r1.2) = (0x007#12, 5, []) ∧ (r2.1.acc, r2.1.cnt.val, r2.2) = (0x000#12, 2, [0x39#8]) ∧
    (r3.1.acc, r3.1.cnt.val, r3.2) = (0x00B#12, 7, []) ∧ (r4.1.acc, r4.1.cnt.val, r4.2) = (0x00B#12, 4, [0x16#8]) := by
  decide

/-- F1. -/
theorem test_bits_le :
    bitsLe [0xA5#8] = [true, false, true, false, false, true, false, true] ∧
    bytesLe [true, true, true, false, true, false, false, true] = [0x97#8] ∧
    num2 [true, false, true, false] = 10 ∧ str2 4 9 = [true, false, false, true] := by decide

/-- F2: L = 64, where `u mod 256` is 0. -/
theorem test_p_block :
    pBytes 512 = [0x01#8, 0x02#8, 0x01#8, 0x00#8, 0x00#8, 0x02#8, 0x0A#8, 0x00#8, 0x00#8, 0x00#8, 0x02#8, 0x00#8, 0x00#8,
      0x00#8, 0x00#8, 0x00#8] ∧
    [fpeB 512, fpeD 512, fpeZ 512] = [32, 36, 15] := by decide +kernel

/-- F2: the counts of queries. -/
theorem test_query_count : [0, 1, 24, 25, 31, 57, 64].map queryCount = [0, 20, 20, 30, 40, 50, 60] := by decide +kernel

/-- F4: CIPH_XOR, K1, A5. -/
theorem test_fpe_xor : fpeEnc ciphXor k1 [0xA5#8] = [0x97#8] ∧ fpeDec ciphXor k1 [0x97#8] = [0xA5#8] := by decide +kernel

/-- F5: CIPH_ADD, K1, 00 40. -/
theorem test_fpe_add :
    fpeEnc ciphAdd k1 [0x00#8, 0x40#8] = [0x2D#8, 0x6D#8] ∧ fpeDec ciphAdd k1 [0x00#8, 0x40#8] = [0x32#8, 0x72#8] := by
  decide +kernel

/-- F8: CIPH_XOR, K1, 26 bytes: one expansion block in every round. -/
theorem test_fpe_expansion :
    fpeEnc ciphXor k1 ((List.range 26).map (BitVec.ofNat 8)) =
      [0x4C#8, 0xC5#8, 0xB1#8, 0x6F#8, 0xEC#8, 0xED#8, 0xE0#8, 0x9E#8, 0x26#8, 0xA9#8, 0xFA#8, 0xB7#8, 0x23#8] ++
      [0x52#8, 0x33#8, 0x55#8, 0x88#8, 0x24#8, 0x94#8, 0x91#8, 0x7E#8, 0xCE#8, 0xB6#8, 0xEF#8, 0x8C#8, 0xC0#8] := by
  decide +kernel

/-! ## Commands: one step on a small state -/

/-- G8: "ab" with 00 40 out; the third input byte, beyond ILEN, is not read. -/
theorem test_encode_ab (h : 2 ≤ Config.capIn) :
    ∃ t, exec .encode { loaded [0x61#8, 0x62#8, 0x63#8] with ilen := 2#32 } = .next t ∧ t.olen = 2#32 ∧
      t.obuf = [(0, 0x00#8), (1, 0x40#8)] ∧ t.status = 0x02#8 := by
  refine ⟨_, exec_success rfl (.inr ?_), rfl, rfl, rfl⟩
  exact h

/-- G8: 00 40 with "aba" out. -/
theorem test_decode_aba (h : 2 ≤ Config.capIn) :
    ∃ t, exec .decode (loaded [0x00#8, 0x40#8]) = .next t ∧ t.olen = 3#32 ∧
      t.obuf = [(0, 0x61#8), (1, 0x62#8), (2, 0x61#8)] ∧ t.status = 0x02#8 := by
  refine ⟨_, exec_success rfl (.inr ?_), rfl, rfl, rfl⟩
  exact h

/-- X4: a key of 15 bytes. -/
theorem test_encrypt_short_key :
    ∃ t, exec .encrypt (keyed 15#8) = .next t ∧ t.status = 0x06#8 ∧ t.errcode = 1#8 ∧ t.olen = 0#32 := ⟨_, rfl, rfl, rfl, rfl⟩

/-- X8: a good key and an empty input. -/
theorem test_encrypt_empty (h : Config.ciphKeyOk (keyed 16#8).keyBlock = true) :
    ∃ t, exec .encrypt (keyed 16#8) = .next t ∧ t.status = 0x02#8 ∧ t.errcode = 0#8 ∧ t.olen = 0#32 :=
  ⟨_, exec_success (by simp [commandError, keyedCommand, keyCheck_of_length (show (keyed 16#8).klen = 16#8 from rfl), h])
    (.inr (Nat.zero_le _)), rfl, rfl, rfl⟩

/-- X6, for DECRYPT: a key of 17 bytes. -/
theorem test_decrypt_long_key :
    ∃ t, exec .decrypt (keyed 17#8) = .next t ∧ t.status = 0x06#8 ∧ t.errcode = 1#8 ∧ t.olen = 0#32 := ⟨_, rfl, rfl, rfl, rfl⟩

/-- X9: a key the cipher rejects. -/
theorem test_decrypt_rejected_key (h : Config.ciphKeyOk (keyed 16#8).keyBlock = false) :
    ∃ t, exec .decrypt (keyed 16#8) = .next t ∧ t.status = 0x06#8 ∧ t.errcode = 2#8 ∧ t.olen = 0#32 :=
  ⟨_, exec_error (c := .keyRejected)
    (by simp [commandError, keyedCommand, keyCheck_of_length (show (keyed 16#8).klen = 16#8 from rfl), h]), rfl, rfl, rfl⟩

/-- X10: K = 0 ignores the key registers. -/
theorem test_runenc_ab (h : 2 ≤ Config.capIn) :
    ∃ t, exec (.runenc false) (loaded [0x61#8, 0x62#8]) = .next t ∧ t.obuf = [(0, 0x00#8), (1, 0x40#8)] ∧ t.status = 0x02#8 := by
  refine ⟨_, exec_success rfl (.inr ?_), rfl, rfl⟩
  exact h

/-- X12: the packed bytes are not delivered. -/
theorem test_runenc_short_key :
    ∃ t, exec (.runenc true) { loaded [0x61#8, 0x62#8] with klen := 15#8 } = .next t ∧ t.errcode = 1#8 ∧ t.olen = 0#32 ∧
      t.obuf = [] := ⟨_, rfl, rfl, rfl, rfl⟩

/-- X14: no decryption. -/
theorem test_rundec_plain (h : 2 ≤ Config.capIn) :
    ∃ t, exec (.rundec false) (loaded [0xE4#8, 0x63#8]) = .next t ∧ t.obuf = [(0, 0x2E#8), (1, 0x72#8), (2, 0x72#8)] := by
  refine ⟨_, exec_success rfl (.inr ?_), rfl⟩
  exact h

/-- R194 with KLEN at its reset value. -/
theorem test_rundec_no_key : ∃ t, exec (.rundec true) State.reset = .next t ∧ t.errcode = 1#8 ∧ t.status = 0x06#8 :=
  ⟨_, rfl, rfl, rfl⟩

/-- X18. -/
theorem test_genkey : ∃ t, exec .genkey (keyed 3#8) = .next t ∧ t.olen = 16#32 ∧ t.klen = 3#8 ∧ t.status = 0x02#8 :=
  ⟨_, rfl, rfl, rfl, rfl⟩

/-- X22: the illegal word has priority over the key. -/
theorem test_illegal_priority :
    ∃ t, step { busyOn 0x0F#8 [] with klen := 15#8 } = .next t ∧ t.errcode = 3#8 ∧ t.status = 0x06#8 ∧ t.olen = 0#32 :=
  ⟨_, rfl, rfl, rfl, rfl⟩

/-! ## The host port -/

/-- X1: RD_STATUS after reset. -/
theorem test_read_status : ∃ t, step (idle .rdStatus) = .next t ∧ t.outbox = [.status 0x00#8] := ⟨_, rfl, rfl⟩

/-- X23: the next Accept clears the error. -/
theorem test_accept_clears_error :
    ∃ t, step { idle (.wrCmd 0x02#8) with status := 0x06#8, errcode := 1#8 } = .next t ∧ t.status = 0x01#8 ∧ t.errcode = 0#8 ∧
      t.opreg = 0x02#8 := ⟨_, rfl, rfl, rfl, rfl⟩

/-- X24: a read of STATUS during a command, and a held read of OLEN. -/
theorem test_status_while_busy :
    ∃ t, step (busyOn 0x06#8 [⟨.rdStatus, true⟩]) = .next t ∧ t.outbox = [.status 0x01#8] ∧ t.busy = true := ⟨_, rfl, rfl, rfl⟩

theorem test_held_while_busy :
    ∃ t, step (busyOn 0x06#8 [⟨.rdOlen, true⟩]) = .next t ∧ t.inbox = [⟨.rdOlen, true⟩] ∧ t.olen = 16#32 := ⟨_, rfl, rfl, rfl⟩

/-- X25: RESET during a command. -/
theorem test_reset_while_busy :
    ∃ t, step (busyOn 0x06#8 [⟨.reset, true⟩]) = .next t ∧ t.status = 0x00#8 ∧ t.olen = 0#32 ∧ t.ibufSeed = 1 := ⟨_, rfl, rfl, rfl, rfl⟩

/-- X26: a length above CAP_IN is dropped. -/
theorem test_ilen_dropped : (State.reset.writeIlen 0xFFFFFFFF#32).ilen = 0#32 := by
  have h := Config.capIn_le
  unfold State.writeIlen
  rw [if_neg (by show ¬ 4294967295 ≤ _; omega)]
  rfl

/-- R58: a write of KEY[15]. -/
theorem test_write_key : ∃ t, step (idle (.wrKey 15 0xAB#8)) = .next t ∧ t.keyByte 15 = 0xAB#8 ∧ t.keyByte 14 = 0x00#8 :=
  ⟨_, rfl, by decide, by decide⟩

/-- `withFetchWord` on the reset state runs the word at the next step. -/
theorem test_fetch_word :
    step (State.reset.withFetchWord 8 0x06) = exec .genkey (State.reset.withFetchWord 8 0x06) ∧
    step (State.reset.withFetchWord 8 0x02) = exec .encrypt (State.reset.withFetchWord 8 0x02) := ⟨rfl, rfl⟩

/-- R81: the lines of a script as transactions. -/
theorem test_script_lines :
    lineKey [0x0A#8, 0x0B#8] = [.wrKey 0 0x0A#8, .wrKey 1 0x0B#8, .wrKlen 2#8] ∧
    lineIn [0x61#8] = [.wrIbuf 0 0x61#8, .wrIlen 1#32] ∧ lineCmd (.rundec true) = [.wrCmd 0x0D#8] ∧
    lineOut 2 = [.rdOlen, .rdObuf 0, .rdObuf 1] ∧ (lineKey (List.replicate 17 0#8)).length = 17 := by decide

/-! ## Witnesses -/

theorem test_command_words_met :
    decodeCmd 0x0C#8 = .ok (.runenc true) ∧ ⟨"RUNENC", 0x04#8, 0xF7#8⟩ ∈ opcodeRows ∧
    OpcodeRow.selects ⟨"RUNENC", 0x04#8, 0xF7#8⟩ 0x0C#8 = true := by decide

theorem test_decode_and_encode_met : decodeCmd 0x0D#8 = .ok (.rundec true) ∧ decodeCmd 0x00#8 = .ok .encode := by decide

theorem test_script_mnemonics_met : ("RUNDEC.K", 0x0D#8) ∈ scriptWords := by decide

theorem test_step_runs_met :
    (busyOn 0x0C#8 []).busy = true ∧ hostTurn (busyOn 0x0C#8 []) = none ∧
    decodeCmd (busyOn 0x0C#8 []).opreg = .ok (.runenc true) := ⟨by decide, rfl, by decide⟩

theorem test_illegal_word_met :
    (busyOn 0xFF#8 []).busy = true ∧ hostTurn (busyOn 0xFF#8 []) = none ∧
    decodeCmd (busyOn 0xFF#8 []).opreg = .error .reservedBits := ⟨by decide, rfl, by decide⟩

theorem test_accept_met :
    (idle (.wrCmd 0xFF#8)).inbox = [⟨.wrCmd 0xFF#8, false⟩] ∧ (idle (.wrCmd 0xFF#8)).busy = false ∧
    (∀ x, (busyOn 0x06#8 [⟨x, true⟩]).busy = true ∧ (busyOn 0x06#8 [⟨x, true⟩]).ilen.toNat ≤ Config.capIn ∧
      (busyOn 0x06#8 [⟨x, true⟩]).inbox = [⟨x, true⟩]) := ⟨rfl, idle_busy _, fun _ => ⟨State.acceptCmd_busy State.reset 0x06#8, Nat.zero_le _, rfl⟩⟩

/-- A legal busy state, whatever waits. -/
theorem busyOn_inv (w : Byte) (reqs : List HostReq) : (busyOn w reqs).Inv :=
  ⟨Nat.zero_le _, ⟨Memory.nil_wf _, by simp [busyOn, State.reset]⟩, ⟨rfl, Nat.zero_le _⟩, .inr (.inl ⟨rfl, rfl⟩),
    ⟨Nat.zero_le _, Nat.zero_le _, Nat.zero_le _, Nat.pow_pos (by omega), Nat.zero_le _⟩⟩

theorem test_held_met :
    (busyOn 0x02#8 [⟨.rdOlen, true⟩]).Inv ∧ (busyOn 0x02#8 [⟨.rdOlen, true⟩]).busy = true ∧ Txn.rdOlen ≠ .rdStatus ∧
    Txn.rdOlen ≠ .reset := ⟨busyOn_inv _ _, by decide, by decide, by decide⟩

theorem test_status_met :
    (busyOn 0x02#8 [⟨.rdStatus, true⟩]).Inv ∧ (busyOn 0x02#8 [⟨.rdStatus, true⟩]).busy = true ∧
    (busyOn 0x02#8 [⟨.rdStatus, true⟩]).inbox = [⟨.rdStatus, true⟩] ∧
    (busyOn 0x02#8 [⟨.rdStatus, false⟩]).Inv ∧ (busyOn 0x02#8 [⟨.rdStatus, false⟩]).busy = true ∧
    (busyOn 0x02#8 [⟨.rdStatus, false⟩]).inbox = [⟨.rdStatus, false⟩] :=
  ⟨busyOn_inv _ _, by decide, rfl, busyOn_inv _ _, by decide, rfl⟩

theorem test_reset_met :
    (busyOn 0x02#8 [⟨.reset, true⟩, ⟨.rdOlen, false⟩]).inbox = [⟨.reset, true⟩, ⟨.rdOlen, false⟩] ∧ 15 < 16 ∧
    (idle .reset).inbox = [⟨.reset, false⟩] ∧ (idle .reset).busy = false ∧
    (busyOn 0x02#8 [⟨.reset, false⟩]).Inv ∧ (busyOn 0x02#8 [⟨.reset, false⟩]).busy = true ∧
    (busyOn 0x02#8 [⟨.reset, false⟩]).inbox = [⟨.reset, false⟩] :=
  ⟨rfl, by decide, rfl, idle_busy _, busyOn_inv _ _, by decide, rfl⟩

theorem test_reads_met :
    (∀ x, (idle x).busy = false ∧ (idle x).inbox = [⟨x, false⟩]) ∧ 15 < 16 ∧ Config.capIn - 1 < Config.capIn ∧
    (delivered [⟨.rdObuf 0, false⟩]).busy = false ∧ 0 < Config.capOut ∧
    (delivered [⟨.rdObuf 0, false⟩]).obufByte 0 = some 0x61#8 ∧
    (delivered [⟨.rdObuf 1, false⟩]).olen.toNat ≤ 1 ∧ 1 < Config.capOut ∧
    Config.capOut - 1 < Config.capOut ∧ (delivered [⟨.rdObuf (Config.capOut - 1), false⟩]).olen.toNat ≤ Config.capOut - 1 := by
  have h1 := Config.capIn_pos
  have h2 : 16 ≤ Config.capOut := Nat.le_max_left _ _
  refine ⟨fun x => ⟨idle_busy x, rfl⟩, by decide, by omega, rfl, by omega, rfl, Nat.le_refl 1, by omega, by omega, ?_⟩
  show 1 ≤ Config.capOut - 1
  omega

theorem test_writes_met :
    (∀ x, (idle x).busy = false ∧ (idle x).inbox = [⟨x, false⟩]) ∧ 15 < 16 ∧ (14 : Nat) ≠ 15 ∧
    (BitVec.ofNat 32 Config.capIn).toNat ≤ Config.capIn ∧ Config.capIn < (BitVec.ofNat 32 (Config.capIn + 1)).toNat ∧
    Config.capIn - 1 < Config.capIn ∧ Config.capIn ≠ Config.capIn - 1 := by
  have h1 := Config.capIn_pos
  have h2 := Config.capIn_le
  refine ⟨fun x => ⟨idle_busy x, rfl⟩, by decide, by decide, ?_, ?_, by omega, by omega⟩ <;> rw [BitVec.toNat_ofNat] <;> omega

theorem test_index_met :
    (∀ x, (idle x).busy = false ∧ (idle x).inbox = [⟨x, false⟩]) ∧ 16 ≤ 16 ∧ Config.capIn ≤ Config.capIn ∧
    Config.capOut ≤ Config.capOut := ⟨fun x => ⟨idle_busy x, rfl⟩, Nat.le_refl _, Nat.le_refl _, Nat.le_refl _⟩

theorem test_step_keeps_met : ∃ t, (busyOn 0x06#8 []).Inv ∧ step (busyOn 0x06#8 []) = .next t := ⟨_, busyOn_inv _ _, rfl⟩

theorem test_completes_met :
    (busyOn 0x00#8 [⟨.rdStatus, true⟩, ⟨.rdOlen, true⟩]).Inv ∧
    (busyOn 0x00#8 [⟨.rdStatus, true⟩, ⟨.rdOlen, true⟩]).busy = true ∧
    (busyOn 0x00#8 [⟨.rdStatus, true⟩, ⟨.reset, true⟩]).Inv ∧
    (busyOn 0x00#8 [⟨.rdStatus, true⟩, ⟨.reset, true⟩]).busy = true :=
  ⟨busyOn_inv _ _, by decide, busyOn_inv _ _, by decide⟩

/-- An IBUF byte written with a value it did not hold. -/
theorem ibuf_changes (v : Byte) (h : v ≠ Config.ibufInit 0 0) :
    ∃ t, step (idle (.wrIbuf 0 v)) = .next t ∧ t.ibufByte 0 ≠ (idle (.wrIbuf 0 v)).ibufByte 0 := by
  have hp := Config.capIn_pos
  refine ⟨(State.reset).writeIbuf 0 v, ?_, ?_⟩
  · rw [step_host (hostTurn_idle (idle_busy (.wrIbuf 0 v)) rfl)]
    have hw : (Txn.wrIbuf 0 v).wf = true := decide_eq_true hp
    simp only [performTxn, txnWrIbuf, hw, if_true]
    rfl
  · rw [State.ibufByte, State.writeIbuf]
    intro e
    exact h ((Memory.read_write_self _ _ _ _).symm.trans e)

theorem test_operands_met :
    (∃ t, step (idle (.wrKey 0 1#8)) = .next t ∧ t.key ≠ (idle (.wrKey 0 1#8)).key) ∧
    (∃ t, step (idle (.wrKlen 16#8)) = .next t ∧ t.klen ≠ (idle (.wrKlen 16#8)).klen) ∧
    (∃ t, step (idle (.wrIlen 1#32)) = .next t ∧ t.ilen ≠ (idle (.wrIlen 1#32)).ilen) ∧
    (∃ v t, step (idle (.wrIbuf 0 v)) = .next t ∧ t.ibufByte 0 ≠ (idle (.wrIbuf 0 v)).ibufByte 0) := by
  refine ⟨⟨_, rfl, by decide⟩, ⟨_, rfl, by decide⟩, ⟨{ State.reset with ilen := 1#32 }, ?_, by decide⟩, ?_⟩
  · have hp := Config.capIn_pos
    rw [step_host (hostTurn_idle (idle_busy (.wrIlen 1#32)) rfl)]
    simp only [performTxn, State.writeIlen]
    rw [if_pos (by show 1 ≤ _; omega)]
    rfl
  · by_cases h : (0#8 : Byte) = Config.ibufInit 0 0
    · exact ⟨1#8, ibuf_changes _ (by rw [← h]; decide)⟩
    · exact ⟨0#8, ibuf_changes _ h⟩

theorem test_results_met :
    (∃ t, step (idle (.wrCmd 0x06#8)) = .next t ∧ t.status ≠ (idle (.wrCmd 0x06#8)).status) ∧
    (∃ t, step (busyOn 0x07#8 []) = .next t ∧ t.errcode ≠ (busyOn 0x07#8 []).errcode) ∧
    (∃ t, step (busyOn 0x06#8 []) = .next t ∧ t.olen ≠ (busyOn 0x06#8 []).olen) ∧
    (∃ t, step (delivered [⟨.reset, true⟩]) = .next t ∧ t.obuf ≠ (delivered [⟨.reset, true⟩]).obuf) :=
  ⟨⟨_, rfl, by decide⟩, ⟨_, rfl, by decide⟩, ⟨_, rfl, by decide⟩, ⟨_, rfl, by decide⟩⟩

theorem test_mapper_laws_met :
    0x3F#8 ∉ Config.symbolBytes ∧ 0x41#8 ∉ Config.symbolBytes ∧ (30#5 : Code) ≠ 31#5 ∧
    caseFold 0x5A#8 ∈ Config.symbolBytes ∧ caseFold 0x5B#8 ∉ Config.symbolBytes := by decide

theorem test_packed_bits_met : 4 ≤ 4 ∧ 1 < (5 * [0#5, 1#5].length + 7) / 8 ∧ 7 ≤ 7 := by decide

theorem test_unpacked_bits_met :
    2 < 8 * [0x00#8, 0x40#8].length / 5 ∧ 4 ≤ 4 ∧ 6 ≤ 7 ∧ 5 * 2 + 4 = 8 * 1 + 6 ∧
    [0x00#8, 0x41#8].length = [0x00#8, 0x40#8].length ∧
    (∀ k, k < 2 → ∀ r', r' < 8 → 8 * k + r' < 5 * (8 * 2 / 5) →
      ([0x00#8, 0x40#8])[k]?.map (fun v => v.getLsbD (7 - r')) = ([0x00#8, 0x41#8])[k]?.map (fun v => v.getLsbD (7 - r'))) := by
  decide

theorem test_unpack_after_pack_met :
    padBits [0#5, 1#5, 2#5, 3#5].length ≤ 4 ∧ 5 ≤ padBits [0#5, 1#5, 2#5, 3#5, 4#5, 5#5, 6#5].length := by decide

theorem test_pack_injective_met : [0#5, 1#5].length = [0#5, 1#5].length ∧ pack5 [0#5, 1#5] = pack5 [0#5, 1#5] := ⟨rfl, rfl⟩

theorem test_decode_after_encode_met :
    [0x61#8, 0x62#8, 0x63#8].length % 8 ∈ [0, 1, 3, 4, 6] ∧ [0x61#8, 0x62#8].length % 8 ∈ [2, 5, 7] ∧
    (∀ c ∈ [0x41#8, 0x0A#8], caseFold c ∈ Config.symbolBytes) := by decide

theorem test_numerals_met : [true, false, true, false, false, true, false, true].length % 8 = 0 := by decide

theorem test_round_strings_met :
    (1 ≤ 1 ∧ 8 * 1 < 2 ^ 32 ∧ 9 < 10 ∧ [true, false, true, false].length = 4 * 1) ∧
    (1 ≤ 2 ^ 29 - 1 ∧ 8 * (2 ^ 29 - 1) < 2 ^ 32 ∧ 0 < 10 ∧ (List.replicate (4 * (2 ^ 29 - 1)) true).length = 4 * (2 ^ 29 - 1)) :=
  ⟨by decide, by decide, by decide, by decide, List.length_replicate⟩

/-- An input that fills IBUF. -/
theorem full_ilen (n : Byte) : (full n).ilen.toNat ≤ Config.capIn := by
  have := Config.capIn_le
  show (BitVec.ofNat 32 Config.capIn).toNat ≤ _
  rw [BitVec.toNat_ofNat]
  omega

theorem test_encode_met : State.reset.ilen.toNat ≤ Config.capIn ∧ (full 0#8).ilen.toNat ≤ Config.capIn :=
  ⟨Nat.zero_le _, full_ilen _⟩

theorem test_decode_met : State.reset.ilen.toNat ≤ Config.capIn ∧ (full 0#8).ilen.toNat ≤ Config.capIn :=
  ⟨Nat.zero_le _, full_ilen _⟩

theorem test_encrypt_met : (full 16#8).klen = 16#8 ∧ (full 16#8).ilen.toNat ≤ Config.capIn ∧ (full 17#8).klen ≠ 16#8 :=
  ⟨rfl, full_ilen _, by decide⟩

theorem test_decrypt_met : (full 16#8).klen = 16#8 ∧ (full 16#8).ilen.toNat ≤ Config.capIn ∧ (full 15#8).klen ≠ 16#8 :=
  ⟨rfl, full_ilen _, by decide⟩

theorem test_runenc_met :
    ((true = true → (full 16#8).klen = 16#8) ∧ (full 16#8).ilen.toNat ≤ Config.capIn) ∧
    ((false = true → (full 3#8).klen = 16#8) ∧ (full 3#8).ilen.toNat ≤ Config.capIn) ∧ (full 0#8).klen ≠ 16#8 :=
  ⟨⟨fun _ => rfl, full_ilen _⟩, ⟨fun h => by simp at h, full_ilen _⟩, by decide⟩

theorem test_rundec_met :
    ((true = true → (full 16#8).klen = 16#8) ∧ (full 16#8).ilen.toNat ≤ Config.capIn) ∧
    ((false = true → (full 3#8).klen = 16#8) ∧ (full 3#8).ilen.toNat ≤ Config.capIn) ∧ (full 0#8).klen ≠ 16#8 :=
  ⟨⟨fun _ => rfl, full_ilen _⟩, ⟨fun h => by simp at h, full_ilen _⟩, by decide⟩

theorem test_wrong_key_length_met :
    keyedCommand .encrypt = true ∧ (keyed 15#8).klen ≠ 16#8 ∧ keyedCommand (.rundec true) = true ∧ (keyed 17#8).klen ≠ 16#8 := by
  decide

theorem test_cause_met : keyedCommand (.runenc true) = true ∧ (full 16#8).ilen.toNat ≤ Config.capIn := ⟨rfl, full_ilen _⟩

theorem test_unkeyed_met :
    keyedCommand .genkey = false ∧ keyedCommand (.rundec false) = false ∧ (full 1#8).ilen.toNat ≤ Config.capIn :=
  ⟨rfl, rfl, full_ilen _⟩

theorem test_leave_met : (∃ t, exec .genkey State.reset = .next t) ∧ ∃ t, exec .decrypt State.reset = .next t := ⟨⟨_, rfl⟩, ⟨_, rfl⟩⟩

/-- Every command answers a next state on an empty input. -/
theorem exec_next_of_empty (i : Instr) (s : State) (h : s.ilen = 0#32) : ∃ t, exec i s = .next t := by
  cases hc : commandError i s with
  | some c => exact ⟨_, exec_error hc⟩
  | none => exact ⟨_, exec_success hc (.inr (by rw [h]; exact Nat.zero_le _))⟩

/-- States that agree on the operands of a keyed command and of GENKEY, and differ elsewhere. -/
theorem test_result_depends_met :
    (keyed 16#8).ilen = { keyed 16#8 with olen := 5#32 }.ilen ∧
    (∀ j, j < (keyed 16#8).ilen.toNat → (keyed 16#8).ibufByte j = { keyed 16#8 with olen := 5#32 }.ibufByte j) ∧
    ((keyed 16#8).key = { keyed 16#8 with olen := 5#32 }.key ∧ (keyed 16#8).klen = { keyed 16#8 with olen := 5#32 }.klen) ∧
    (keyed 16#8).entropyDraws = { keyed 16#8 with olen := 5#32 }.entropyDraws ∧
    (∃ t, exec .encrypt (keyed 16#8) = .next t) ∧ (∃ t, exec .genkey (keyed 16#8) = .next t) :=
  ⟨rfl, fun _ _ => rfl, ⟨rfl, rfl⟩, rfl, exec_next_of_empty _ _ rfl, exec_next_of_empty _ _ rfl⟩

/-- What a command with an empty input leaves in OLEN, unless it is GENKEY. -/
theorem olen_of_empty {i : Instr} {s t : State} (hi : i = .encode ∨ i = .decrypt ∨ ∃ k, i = .runenc k) (h : s.ilen = 0#32)
    (ht : exec i s = .next t) : t.olen = 0#32 := by
  have hb : s.inputBytes = [] := by simp [State.inputBytes, h]
  rcases exec_cases ht with ⟨c, -, rfl⟩ | ⟨-, -, rfl⟩
  · rfl
  · rcases hi with rfl | rfl | ⟨k, rfl⟩
    · simp [commandOutput, hb]; rfl
    · simp [commandOutput, hb, fpeDec]
    · cases k <;> simp [commandOutput, hb]
      · rfl
      · rw [show (enc []) = [] from rfl]; simp [fpeEnc]

theorem test_pipeline_met :
    (∃ t u, exec .encode (keyed 16#8) = .next t ∧ (keyed 16#8).ilen = t.olen ∧
      (∀ j, j < t.olen.toNat → t.obufByte j = some ((keyed 16#8).ibufByte j)) ∧ exec .encrypt (keyed 16#8) = .next u) ∧
    (keyed 16#8).ilen.toNat ≤ Config.capIn ∧
    (∃ t u, exec .decrypt (keyed 16#8) = .next t ∧ (keyed 16#8).ilen = t.olen ∧
      (∀ j, j < t.olen.toNat → t.obufByte j = some ((keyed 16#8).ibufByte j)) ∧ exec .decode (keyed 16#8) = .next u) := by
  obtain ⟨t, ht⟩ := exec_next_of_empty .encode (keyed 16#8) rfl
  obtain ⟨u, hu⟩ := exec_next_of_empty .encrypt (keyed 16#8) rfl
  obtain ⟨t', ht'⟩ := exec_next_of_empty .decrypt (keyed 16#8) rfl
  obtain ⟨u', hu'⟩ := exec_next_of_empty .decode (keyed 16#8) rfl
  have h1 := olen_of_empty (.inl rfl) rfl ht
  have h2 := olen_of_empty (.inr (.inl rfl)) rfl ht'
  refine ⟨⟨t, u, ht, h1.symm, fun j hj => ?_, hu⟩, Nat.zero_le _, t', u', ht', h2.symm, fun j hj => ?_, hu'⟩
  · rw [h1] at hj; exact absurd hj (Nat.not_lt_zero _)
  · rw [h2] at hj; exact absurd hj (Nat.not_lt_zero _)

theorem test_undoes_met (k : Bool) :
    ∃ t, exec (.runenc k) (keyed 16#8) = .next t ∧ (keyed 16#8).ilen = t.olen ∧
      ∀ j, j < t.olen.toNat → t.obufByte j = some ((keyed 16#8).ibufByte j) := by
  obtain ⟨t, ht⟩ := exec_next_of_empty (.runenc k) (keyed 16#8) rfl
  have h := olen_of_empty (.inr (.inr ⟨k, rfl⟩)) rfl ht
  refine ⟨t, ht, h.symm, fun j hj => ?_⟩
  rw [h] at hj
  exact absurd hj (Nat.not_lt_zero _)

theorem test_queries_met :
    keyedCommand (.runenc false) = false ∧ commandError .encrypt State.reset ≠ none ∧ State.reset.ilen = 0#32 ∧
    (full 16#8).klen = 16#8 := ⟨rfl, by decide, rfl, rfl⟩

theorem test_sequencer_met : (full 16#8).ilen.toNat ≤ Config.capIn := full_ilen _

theorem test_in_line_met :
    (scriptRequests false (lineIn [0x61#8])).length = 2 ∧ [0x61#8].length ≤ Config.capIn ∧
    { State.reset with inbox := scriptRequests false (lineIn [0x61#8]) }.busy = false := ⟨rfl, Config.capIn_pos, rfl⟩

theorem test_key_line_met :
    (List.replicate 16 0x5A#8).length = 16 ∧
    { State.reset with inbox := scriptRequests false (lineKey (List.replicate 16 0x5A#8)) }.busy = false := ⟨rfl, rfl⟩

theorem test_out_line_met :
    (delivered (scriptRequests false (lineOut 1))).Inv ∧ (delivered (scriptRequests false (lineOut 1))).busy = false ∧
    (delivered (scriptRequests false (lineOut 1))).Delivers [0x61#8] := by
  refine ⟨⟨Nat.zero_le _, ⟨Memory.nil_wf _, by simp [delivered, State.reset]⟩, ⟨rfl, ?_⟩, .inr (.inr (.inl ⟨rfl, rfl⟩)),
    ⟨Nat.zero_le _, Nat.zero_le _, Nat.zero_le _, Nat.pow_pos (by omega), Nat.zero_le _⟩⟩, rfl, rfl, fun j => ?_⟩
  · exact Nat.le_trans (by decide) (Nat.le_max_left _ _)
  · rcases j with _ | j <;> simp [State.obufByte, delivered, Memory.lookup]

end Sys2Proof.Tests
end

section
/-! PROOFS. Noninterference: what a command reads of the state, one operand at a time, and O48, that its result depends on
nothing else (spec/00_scope.md R11, spec/43_pipeline.md R190 and R198). -/

namespace Sys2Proof.Machine

/-- IBUF at and beyond ILEN is no part of the input operand. -/
theorem State.inputBytes_congr {s s' : State} (hl : s.ilen = s'.ilen)
    (hb : ∀ j, j < s.ilen.toNat → s.ibufByte j = s'.ibufByte j) : s.inputBytes = s'.inputBytes := by
  unfold State.inputBytes
  rw [← hl]
  exact List.map_congr_left fun j hj => hb j (List.mem_range.1 hj)

theorem State.keyBlock_congr {s s' : State} (h : s.key = s'.key) : s.keyBlock = s'.keyBlock := by
  unfold State.keyBlock
  rw [h]

theorem State.draw16_congr {s s' : State} (h : s.entropyDraws = s'.entropyDraws) : s.draw16 = s'.draw16 := by
  unfold State.draw16
  rw [h]

theorem keyCheck_congr {s s' : State} (h : s.key = s'.key ∧ s.klen = s'.klen) : keyCheck s = keyCheck s' := by
  unfold keyCheck
  rw [h.2, State.keyBlock_congr h.1]

/-- The error of a command depends on KEY and KLEN alone, and on those only when the command is keyed. -/
theorem commandError_congr {i : Instr} {s s' : State}
    (hk : keyedCommand i = true → s.key = s'.key ∧ s.klen = s'.klen) : commandError i s = commandError i s' := by
  unfold commandError
  split
  · next hi => exact keyCheck_congr (hk hi)
  · rfl

/-- The output of a command depends on its input bytes, on KEY when it is keyed, and on the draw when it is GENKEY. -/
theorem commandOutput_congr {i : Instr} {s s' : State} (hin : s.inputBytes = s'.inputBytes)
    (hk : keyedCommand i = true → s.keyBlock = s'.keyBlock) (hd : i = .genkey → s.draw16 = s'.draw16) :
    commandOutput i s = commandOutput i s' := by
  cases i with
  | encode | decode => simp only [commandOutput, hin]
  | encrypt | decrypt => simp only [commandOutput, hin, hk rfl]
  | runenc k | rundec k =>
    cases k with
    | false => simp only [commandOutput, hin, Bool.false_eq_true, if_false]
    | true => simp only [commandOutput, hin, hk rfl]
  | genkey => exact hd rfl

/-- Settles O48: the two runs raise the same error, or they read the same operands and deliver the same output; STATUS, ERRCODE,
OLEN and OBUF of either completion are functions of that error or that output alone. -/
theorem resultDependsOnOperandsAlone : Obligations.ResultDependsOnOperandsAlone := by
  intro i s s' t hl hb hk hd ht
  have herr : commandError i s = commandError i s' := commandError_congr hk
  have hout : commandOutput i s = commandOutput i s' :=
    commandOutput_congr (State.inputBytes_congr hl hb) (fun hi => State.keyBlock_congr (hk hi).1)
      (fun hi => State.draw16_congr (hd hi))
  rcases exec_cases ht with ⟨c, hc, rfl⟩ | ⟨hc, hcap, rfl⟩
  · exact ⟨s'.raiseError c, exec_error (herr ▸ hc), rfl, rfl, rfl, fun _ => rfl⟩
  · refine ⟨_, exec_success (herr ▸ hc) (hl ▸ hcap), ?_⟩
    rw [hout]
    exact ⟨rfl, rfl, rfl, fun _ => rfl⟩

end Sys2Proof.Machine
end

section
/-! PROOFS. The state: the values of reset and that it is legal (O10, O14), that every step keeps a state legal (O15), and that
the operands change only by the host's write of them or RESET (O17) (spec/10_state.md R22 to R39, spec/20_memory.md R50, R58, R67,
R68). -/

namespace Sys2Proof.Machine

/-! ## The length of what a command delivers -/

/-- Two halves as an FPE run on `l` bytes has them at every round: both of `4 * l` numerals (R146). -/
def EvenHalves (l : Nat) (ab : List Bool × List Bool) : Prop := ab.1.length = 4 * l ∧ ab.2.length = 4 * l

theorem splitHalves_bitsLe_even (buf : List Byte) : EvenHalves buf.length (splitHalves (bitsLe buf)) := by
  have hl := bitsLe_length buf
  simp only [EvenHalves, splitHalves, fpeU, List.length_take, List.length_drop]
  omega

theorem encRound_keeps_even {ciph : Block → Block → Block} {k : Block} {n l i : Nat} {ab : List Bool × List Bool}
    (hn : n = 8 * l) (h : EvenHalves l ab) : EvenHalves l (encRound ciph k n i ab) := by
  subst hn
  exact ⟨h.2, encRound_lengths.2.trans (roundLen_bytes l i)⟩

theorem decRound_keeps_even {ciph : Block → Block → Block} {k : Block} {n l i : Nat} {ab : List Bool × List Bool}
    (hn : n = 8 * l) (h : EvenHalves l ab) : EvenHalves l (decRound ciph k n i ab) := by
  subst hn
  exact ⟨decRound_lengths.1.trans (roundLen_bytes l i), h.1⟩

theorem bytesLe_evenHalves_length {l : Nat} {ab : List Bool × List Bool} (h : EvenHalves l ab) :
    (bytesLe (ab.1 ++ ab.2)).length = l := by
  rw [bytesLe_length, List.length_append, h.1, h.2]
  omega

/-- Rounds in any order that keep the halves even keep them so to the end. -/
theorem rounds_keep_even {round : List Bool × List Bool → Nat → List Bool × List Bool} {l : Nat}
    (hround : ∀ ab i, EvenHalves l ab → EvenHalves l (round ab i)) (order : List Nat) {ab : List Bool × List Bool}
    (h : EvenHalves l ab) : EvenHalves l (order.foldl round ab) :=
  List.foldlRecOn order round h fun ab hab i _ => hround ab i hab

theorem fpeEnc_length (ciph : Block → Block → Block) (k : Block) (buf : List Byte) :
    (fpeEnc ciph k buf).length = buf.length := by
  cases buf with
  | nil => rfl
  | cons v buf =>
    exact bytesLe_evenHalves_length (rounds_keep_even (fun _ _ => encRound_keeps_even (bitsLe_length _)) _
      (splitHalves_bitsLe_even _))

theorem fpeDec_length (ciph : Block → Block → Block) (k : Block) (buf : List Byte) :
    (fpeDec ciph k buf).length = buf.length := by
  cases buf with
  | nil => rfl
  | cons v buf =>
    exact bytesLe_evenHalves_length (rounds_keep_even (fun _ _ => decRound_keeps_even (bitsLe_length _)) _
      (splitHalves_bitsLe_even _))

theorem enc_length_le (t : List Byte) : (enc t).length ≤ t.length := by
  rw [enc_length, packedLen, ceilDiv]
  omega

theorem dec_length_le_capOut {unk : Byte} {b : List Byte} (h : b.length ≤ Config.capIn) :
    (dec unk b).length ≤ Config.capOut := by
  rw [dec_length, unpackedLen, Config.capOut]
  omega

/-- OBUF has room for what a command delivers: CAP_OUT is the larger of a draw and the text of a full input (R9). -/
theorem commandOutput_length_le {i : Instr} {s : State} (h : i = .genkey ∨ s.ilen.toNat ≤ Config.capIn) :
    (commandOutput i s).length ≤ Config.capOut := by
  have hin (hi : i ≠ .genkey) : s.inputBytes.length ≤ Config.capIn := s.inputBytes_length.trans_le (h.resolve_left hi)
  have hio := Config.capIn_le_capOut
  cases i with
  | encode => exact (enc_length_le _).trans ((hin nofun).trans hio)
  | decode => exact dec_length_le_capOut (hin nofun)
  | encrypt => exact (fpeEnc_length _ _ _).trans_le ((hin nofun).trans hio)
  | decrypt => exact (fpeDec_length _ _ _).trans_le ((hin nofun).trans hio)
  | runenc k =>
    have henc : (enc s.inputBytes).length ≤ Config.capOut := (enc_length_le _).trans ((hin nofun).trans hio)
    cases k with
    | false => exact henc
    | true => exact (fpeEnc_length _ _ _).trans_le henc
  | rundec k =>
    cases k with
    | false => exact dec_length_le_capOut (hin nofun)
    | true => exact dec_length_le_capOut ((fpeDec_length _ _ _).trans_le (hin nofun))
  | genkey => exact s.draw16_length.trans_le (Nat.le_max_left _ _)

/-! ## Legal states -/

/-- A state whose registers and buffers are those of reset is legal, whatever unknown content IBUF holds. -/
theorem State.inv_of_cleared {s : State} (hstatus : s.status = 0x00#8) (herr : s.errcode = 0#8) (hilen : s.ilen = 0#32)
    (holen : s.olen = 0#32) (hibuf : s.ibuf = []) (hobuf : s.obuf = []) (hdp : s.dp = Datapath.reset) : s.Inv where
  ilen := by simp [hilen]
  ibuf := by
    rw [State.IbufOk, hibuf]
    exact ⟨Memory.nil_wf _, by simp⟩
  obuf := by simp [State.ObufOk, hobuf, holen]
  flags := .inl ⟨hstatus, herr, holen⟩
  datapath := by simp [State.DatapathOk, hdp, Datapath.reset]

/-- Settles O14: every buffer is empty and every internal register is 0 or empty. -/
theorem resetStateIsLegal : Obligations.ResetStateIsLegal :=
  State.inv_of_cleared rfl rfl rfl rfl rfl rfl rfl

theorem State.resetEvent_inv (s : State) : s.resetEvent.Inv :=
  State.inv_of_cleared rfl rfl rfl rfl rfl rfl rfl

section
variable {s : State} (h : s.Inv)
include h

theorem State.Inv.takeRequest (rest : List HostReq) : (s.takeRequest rest).Inv :=
  ⟨h.ilen, h.ibuf, h.obuf, h.flags, h.datapath⟩

theorem State.Inv.reply (r : Reply) : (s.reply r).Inv := ⟨h.ilen, h.ibuf, h.obuf, h.flags, h.datapath⟩

theorem State.Inv.takeFree : s.takeFree.Inv := ⟨h.ilen, h.ibuf, h.obuf, h.flags, h.datapath⟩

theorem State.Inv.afterDraws (i : Instr) : (s.afterDraws i).Inv := ⟨h.ilen, h.ibuf, h.obuf, h.flags, h.datapath⟩

theorem State.Inv.writeKey (i : Nat) (v : Byte) : (s.writeKey i v).Inv :=
  ⟨h.ilen, h.ibuf, h.obuf, h.flags, h.datapath⟩

theorem State.Inv.writeKlen (v : Byte) : (s.writeKlen v).Inv := ⟨h.ilen, h.ibuf, h.obuf, h.flags, h.datapath⟩

/-- A write of ILEN above CAP_IN is dropped, so ILEN stays within it (R26). -/
theorem State.Inv.writeIlen (v : Len) : (s.writeIlen v).Inv := by
  by_cases hv : v.toNat ≤ Config.capIn
  · rw [State.writeIlen_of_le s hv]
    exact ⟨hv, h.ibuf, h.obuf, h.flags, h.datapath⟩
  · rw [State.writeIlen_of_gt s (by omega)]
    exact h

theorem State.Inv.writeIbuf {j : Nat} (hj : j < Config.capIn) (v : Byte) : (s.writeIbuf j v).Inv := by
  obtain ⟨hwf, hin⟩ := h.ibuf
  refine ⟨h.ilen, ⟨Memory.write_wf hwf, fun c hc => ?_⟩, h.obuf, h.flags, h.datapath⟩
  rcases Memory.mem_write hc with rfl | hc
  · exact hj
  · exact hin c hc

/-- OBUF stays at Accept, so only STATUS and ERRCODE are new (R196). -/
theorem State.Inv.acceptCmd (w : Byte) : (s.acceptCmd w).Inv :=
  ⟨h.ilen, h.ibuf, h.obuf, .inr (.inl ⟨rfl, rfl⟩), h.datapath⟩

theorem State.Inv.succeed {out : List Byte} (hout : out.length ≤ Config.capOut) : (s.succeed out).Inv := by
  have holen : (s.succeed out).olen.toNat = out.length :=
    (State.succeed_delivers (hout.trans_lt Config.capOut_lt)).1
  refine ⟨h.ilen, h.ibuf, ⟨?_, holen ▸ hout⟩, .inr (.inr (.inl ⟨rfl, rfl⟩)), State.datapathOk_of_clip rfl⟩
  rw [holen]
  exact Memory.ofBytes_indices out

theorem State.Inv.raiseError (c : Cause) : (s.raiseError c).Inv := by
  have hcode : causeCode c = 1#8 ∨ causeCode c = 2#8 ∨ causeCode c = 3#8 := by cases c <;> decide
  exact ⟨h.ilen, h.ibuf, ⟨rfl, Nat.zero_le _⟩, .inr (.inr (.inr ⟨rfl, hcode, rfl⟩)), State.datapathOk_of_clip rfl⟩

theorem State.Inv.performTxn {x : Txn} {t : State} (ht : performTxn x s = .next t) : t.Inv := by
  rcases performTxn_cases ht with ⟨i, v, -, -, rfl⟩ | ⟨v, -, rfl⟩ | ⟨v, -, rfl⟩ | ⟨j, v, -, hj, rfl⟩ | ⟨w, -, rfl⟩ |
    ⟨-, rfl⟩ | ⟨r, rfl⟩ | ⟨r, rfl⟩
  · exact h.writeKey i v
  · exact h.writeKlen v
  · exact h.writeIlen v
  · exact h.writeIbuf hj v
  · exact h.acceptCmd w
  · exact s.resetEvent_inv
  · exact h.reply r
  · exact h.takeFree.reply r

theorem State.Inv.complete {t : State} (ht : complete s = .next t) : t.Inv := by
  rcases complete_cases ht with ⟨c, rfl⟩ | ⟨i, hi, rfl⟩
  · exact h.raiseError c
  · exact (h.afterDraws i).succeed (commandOutput_length_le hi)

end

/-- Settles O15: each of the three kinds of step keeps the invariant: a host transaction, a Complete step, an idle core at rest. -/
theorem stepKeepsTheStateLegal : Obligations.StepKeepsTheStateLegal := by
  intro s t hs ht
  rcases step_cases ht with ⟨x, rest, -, hx⟩ | ⟨-, -, hc⟩ | ⟨-, -, rfl⟩
  · exact (hs.takeRequest rest).performTxn hx
  · exact hs.complete hc
  · exact hs

/-! ## Who changes the operands -/

theorem complete_frame {s t : State} (h : complete s = .next t) : s.CommandFrame t := by
  rcases complete_cases h with ⟨c, rfl⟩ | ⟨i, -, rfl⟩
  · exact s.raiseError_frame c
  · exact s.succeed_frame i _

/-- A step that performs no transaction of the host keeps the operands. -/
theorem step_txn_or_frame {s t : State} (h : step s = .next t) :
    (∃ x rest, hostTurn s = some (x, rest) ∧ performTxn x (s.takeRequest rest) = .next t) ∨ s.CommandFrame t := by
  rcases step_cases h with hx | ⟨-, -, hc⟩ | ⟨-, -, rfl⟩
  · exact .inl hx
  · exact .inr (complete_frame hc)
  · exact .inr ⟨rfl, rfl, rfl, fun _ => rfl, rfl, rfl, rfl⟩

@[simp] theorem State.writeIlen_ibufByte (s : State) (v : Len) (j : Nat) :
    (s.writeIlen v).ibufByte j = s.ibufByte j := by
  simp [State.ibufByte, State.ibufDefault]

/-- An IBUF byte that is not the one written stays. -/
theorem State.writeIbuf_ibufByte_other (s : State) {j k : Nat} (h : k ≠ j) (v : Byte) :
    (s.writeIbuf j v).ibufByte k = s.ibufByte k := Memory.read_write_other h

/-- For each operand, a transaction leaves it as it was, or is RESET, or is the write of just that operand. -/
theorem performTxn_operands {x : Txn} {s t : State} (h : performTxn x s = .next t) :
    (t.key = s.key ∨ x = .reset ∨ ∃ i v, x = .wrKey i v) ∧
    (t.klen = s.klen ∨ x = .reset ∨ ∃ v, x = .wrKlen v) ∧
    (t.ilen = s.ilen ∨ x = .reset ∨ ∃ v, x = .wrIlen v) ∧
    (∀ j, t.ibufByte j = s.ibufByte j ∨ x = .reset ∨ ∃ v, x = .wrIbuf j v) := by
  rcases performTxn_cases h with ⟨i, v, rfl, -, rfl⟩ | ⟨v, rfl, rfl⟩ | ⟨v, rfl, rfl⟩ | ⟨j, v, rfl, -, rfl⟩ | ⟨w, -, rfl⟩ |
    ⟨rfl, -⟩ | ⟨r, rfl⟩ | ⟨r, rfl⟩
  · exact ⟨.inr (.inr ⟨i, v, rfl⟩), .inl rfl, .inl rfl, fun _ => .inl rfl⟩
  · exact ⟨.inl rfl, .inr (.inr ⟨v, rfl⟩), .inl rfl, fun _ => .inl rfl⟩
  · exact ⟨.inl (s.writeIlen_key v), .inl (s.writeIlen_klen v), .inr (.inr ⟨v, rfl⟩),
      fun j => .inl (s.writeIlen_ibufByte v j)⟩
  · refine ⟨.inl rfl, .inl rfl, .inl rfl, fun k => ?_⟩
    by_cases hk : k = j
    · exact .inr (.inr ⟨v, by rw [hk]⟩)
    · exact .inl (s.writeIbuf_ibufByte_other hk v)
  · exact ⟨.inl rfl, .inl rfl, .inl rfl, fun _ => .inl rfl⟩
  · exact ⟨.inr (.inl rfl), .inr (.inl rfl), .inr (.inl rfl), fun _ => .inr (.inl rfl)⟩
  · exact ⟨.inl rfl, .inl rfl, .inl rfl, fun _ => .inl rfl⟩
  · exact ⟨.inl rfl, .inl rfl, .inl rfl, fun _ => .inl rfl⟩

/-- Settles O17: Complete and an idle core at rest keep all four operands, and a transaction changes only the one it names. -/
theorem operandsChangeOnlyByTheHost : Obligations.OperandsChangeOnlyByTheHost := by
  intro s t h
  rcases step_txn_or_frame h with ⟨x, rest, hx, hp⟩ | ⟨hkey, hklen, hilen, hibuf, -⟩
  · obtain ⟨hkey, hklen, hilen, hibuf⟩ := performTxn_operands hp
    simp only [hx, Option.some.injEq, Prod.mk.injEq]
    exact ⟨fun hne => ⟨rest, by simpa using hkey.resolve_left hne⟩, fun hne => ⟨rest, by simpa using hklen.resolve_left hne⟩,
      fun hne => ⟨rest, by simpa using hilen.resolve_left hne⟩,
      fun j hne => ⟨rest, by simpa using (hibuf j).resolve_left hne⟩⟩
  · exact ⟨absurd hkey, absurd hklen, absurd hilen, fun j => absurd (hibuf j)⟩

/-! ## The reset state -/

theorem State.reset_keyByte (i : Nat) : State.reset.keyByte i = 0x00#8 := by
  simp only [State.keyByte, State.reset, Vector.getElem?_replicate]
  split <;> rfl

/-- With OLEN = 0 no OBUF byte has a value (R29). -/
theorem State.obufByte_of_olen_zero {s : State} (h : s.olen = 0#32) (j : Nat) : s.obufByte j = none := by
  simp [State.obufByte, h]

/-- Settles O10: the registers by the reset table; no IBUF byte is listed, so each reads as its unknown content, and OLEN is 0. -/
theorem resetStateHoldsTheSpecsValues : Obligations.ResetStateHoldsTheSpecsValues :=
  ⟨rfl, rfl, rfl, rfl, rfl, fun i _ => State.reset_keyByte i, rfl, rfl, rfl, rfl, fun _ => rfl,
    State.obufByte_of_olen_zero rfl⟩

end Sys2Proof.Machine
end

section
/-! PROOFS. The two ROMs of the mapper hold its functions, O20 (spec/10_state.md R31 and R32, spec/40_mapper.md R97). -/

namespace Sys2Proof.Machine

/-- The index ranges of R97, entry by entry. -/
theorem s2cRom_eq_map : s2cRom = (List.range 256).map (fun n => s2c (BitVec.ofNat 8 n)) := by decide +kernel

theorem s2cRom_getElem? (c : Byte) : s2cRom[c.toNat]? = some (s2c c) := by
  have hc : c.toNat < 256 := c.isLt
  simp [s2cRom_eq_map, hc]

/-- UNK_CHAR stands for code 31 only. -/
theorem c2s_congr_unk (unk unk' : Byte) {k : Code} (h : k ≠ 31#5) : c2s unk k = c2s unk' k := by
  unfold c2s
  split_ifs
  any_goals rfl
  bv_omega

theorem symbolBytes_length : Config.symbolBytes.length = 31 := rfl

/-- The symbol bytes stand in code order (R91). -/
theorem symbolBytes_getElem? : ∀ k : Code, k ≠ 31#5 → Config.symbolBytes[k.toNat]? = some (c2s 0x00#8 k) := by decide +kernel

theorem c2sRom_getElem? (k : Code) : c2sRom[k.toNat]? = some (c2s Config.unkChar k) := by
  by_cases hk : k = 31#5
  · subst hk
    rfl
  · have hlt : k.toNat < Config.symbolBytes.length := by
      rw [symbolBytes_length]
      bv_omega
    rw [c2sRom, List.getElem?_append_left hlt, symbolBytes_getElem? k hk, c2s_congr_unk _ Config.unkChar hk]

/-- Settles O20: S2C by the index ranges of its ROM, C2S by the symbol bytes for the codes below 31 and UNK_CHAR for code 31. -/
theorem romsHoldTheMapper : Obligations.RomsHoldTheMapper :=
  ⟨by simp [s2cRom_eq_map], s2cRom_getElem?, by simp [c2sRom, symbolBytes_length], c2sRom_getElem?⟩

end Sys2Proof.Machine
end

section
/-! PROOFS. The host port: the read and the write of each operand and of each result (O11, O12), the accesses outside their index
space (O13), what a transaction meets while a command is in progress (O7, O8), and who changes the results (O18)
(spec/20_memory.md R51, R58 to R60, R68, spec/43_pipeline.md R197, spec/60_exceptions.md R219). -/

namespace Sys2Proof.Machine

/-! ## The indexed transactions -/

section
variable (s : State)

theorem performTxn_wrKey (i : Nat) (v : Byte) :
    performTxn (.wrKey i v) s = if i < 16 then .next (s.writeKey i v) else .refused (.keyIndex i) := by
  simp [performTxn, txnWrKey, Txn.wf]

theorem performTxn_rdKey (i : Nat) :
    performTxn (.rdKey i) s = if i < 16 then .next (s.reply (.key i (s.keyByte i))) else .refused (.keyIndex i) := by
  simp [performTxn, txnRdKey, Txn.wf]

theorem performTxn_wrIbuf (j : Nat) (v : Byte) :
    performTxn (.wrIbuf j v) s = if j < Config.capIn then .next (s.writeIbuf j v) else .refused (.ibufIndex j) := by
  simp [performTxn, txnWrIbuf, Txn.wf]

theorem performTxn_rdIbuf (j : Nat) :
    performTxn (.rdIbuf j) s =
      if j < Config.capIn then .next (s.reply (.ibuf j (s.ibufByte j))) else .refused (.ibufIndex j) := by
  simp [performTxn, txnRdIbuf, Txn.wf]

theorem performTxn_rdObuf_some {j : Nat} {v : Byte} (hj : j < Config.capOut) (hv : s.obufByte j = some v) :
    performTxn (.rdObuf j) s = .next (s.reply (.obuf j v)) := by
  simp [performTxn, txnRdObuf, Txn.wf, hj, hv]

theorem performTxn_rdObuf_none {j : Nat} (hj : j < Config.capOut) (hv : s.obufByte j = none) :
    performTxn (.rdObuf j) s = .next (s.takeFree.reply (.obuf j (Config.freeByte s.free))) := by
  simp [performTxn, txnRdObuf, Txn.wf, hj, hv]

theorem performTxn_rdObuf_refused {j : Nat} (hj : Config.capOut ≤ j) :
    performTxn (.rdObuf j) s = .refused (.obufIndex j) := by
  simp [performTxn, txnRdObuf, Txn.wf, hj]

/-- An OBUF byte at or beyond OLEN has no value (R29). -/
theorem State.obufByte_of_olen_le {j : Nat} (h : s.olen.toNat ≤ j) : s.obufByte j = none := if_neg (by omega)

/-- A KEY byte that is written is read back. -/
theorem State.writeKey_keyByte_self {i : Nat} (h : i < 16) (v : Byte) : (s.writeKey i v).keyByte i = v := by
  simp [State.keyByte, h]

/-- A KEY byte that is not the one written stays. -/
theorem State.writeKey_keyByte_other {i k : Nat} (h : k ≠ i) (v : Byte) : (s.writeKey i v).keyByte k = s.keyByte k := by
  simp [State.keyByte, h.symm]

/-- An IBUF byte that is written is read back. -/
theorem State.writeIbuf_ibufByte_self (j : Nat) (v : Byte) : (s.writeIbuf j v).ibufByte j = v :=
  Memory.read_write_self _ _ _ _

end

/-! ## An idle core -/

/-- An idle core performs the oldest transaction, whatever its place relative to Complete. -/
theorem step_idle {s : State} {r : HostReq} {rest : List HostReq} (h : s.busy = false) (hi : s.inbox = r :: rest) :
    step s = performTxn r.txn (s.takeRequest rest) := step_host (hostTurn_idle h hi)

/-- Settles O13: the transaction is performed at once, and its index fails the check of its own equation. -/
theorem indexOutsideItsSpaceIsRefused : Obligations.IndexOutsideItsSpaceIsRefused := by
  refine fun s e rest hb => ⟨fun i v h hi => ?_, fun i h hi => ?_, fun j v h hi => ?_, fun j h hi => ?_, fun j h hi => ?_⟩
  · rw [step_idle hb hi, performTxn_wrKey, if_neg h.not_gt]
  · rw [step_idle hb hi, performTxn_rdKey, if_neg h.not_gt]
  · rw [step_idle hb hi, performTxn_wrIbuf, if_neg h.not_gt]
  · rw [step_idle hb hi, performTxn_rdIbuf, if_neg h.not_gt]
  · rw [step_idle hb hi, performTxn_rdObuf_refused _ h]

/-- Settles O11: each read is performed at once and is one reply; only the read of an OBUF byte without a value takes a free one. -/
theorem readsReturnTheirValueAndChangeNothing : Obligations.ReadsReturnTheirValueAndChangeNothing := by
  refine fun s e rest hb => ⟨fun i h hi => ?_, step_idle hb, step_idle hb, fun j h hi => ?_, step_idle hb, step_idle hb,
    step_idle hb, fun j v h hv hi => ?_, fun j h hj hi => ?_⟩
  · rw [step_idle hb hi, performTxn_rdKey, if_pos h]
    rfl
  · rw [step_idle hb hi, performTxn_rdIbuf, if_pos h]
    rfl
  · exact (step_idle hb hi).trans (performTxn_rdObuf_some (s.takeRequest rest) h hv)
  · exact (step_idle hb hi).trans (performTxn_rdObuf_none (s.takeRequest rest) h (s.obufByte_of_olen_le hj))

/-- Settles O12: each write is performed at once; in KEY and IBUF the byte written is read back and every other byte stays. -/
theorem writesChangeOnlyWhatTheyName : Obligations.WritesChangeOnlyWhatTheyName := by
  refine fun s e rest hb => ⟨fun i v h hi => ?_, fun v => step_idle hb, fun v h hi => ?_, fun v h hi => ?_,
    fun j v h hi => ?_⟩
  · exact ⟨(s.takeRequest rest).writeKey i v, by rw [step_idle hb hi, performTxn_wrKey, if_pos h],
      State.writeKey_keyByte_self _ h v, fun k hk => State.writeKey_keyByte_other _ hk v, rfl⟩
  · rw [step_idle hb hi, performTxn, State.writeIlen_of_le _ h]
    rfl
  · rw [step_idle hb hi, performTxn, State.writeIlen_of_gt _ h]
    rfl
  · exact ⟨(s.takeRequest rest).writeIbuf j v, by rw [step_idle hb hi, performTxn_wrIbuf, if_pos h],
      State.writeIbuf_ibufByte_self _ j v, fun k hk => State.writeIbuf_ibufByte_other _ hk v, rfl⟩

/-! ## A command in progress -/

/-- A command whose input exists stops on no path. -/
theorem exec_next_of_le (i : Instr) {s : State} (h : s.ilen.toNat ≤ Config.capIn) : ∃ t, exec i s = .next t := by
  cases hc : commandError i s with
  | some c => exact ⟨_, exec_error hc⟩
  | none => exact ⟨_, exec_success hc (.inr h)⟩

theorem complete_next_of_le {s : State} (h : s.ilen.toNat ≤ Config.capIn) : ∃ t, complete s = .next t := by
  cases hd : decodeCmd s.opreg with
  | error e => exact ⟨_, complete_illegal hd⟩
  | ok i =>
    rw [complete_ok hd]
    exact exec_next_of_le i h

/-- Complete leaves the core idle and done, with success or with an error (R215, R216). -/
theorem complete_idle_done {s t : State} (h : complete s = .next t) : t.busy = false ∧ t.done = true := by
  rcases complete_cases h with ⟨c, rfl⟩ | ⟨i, -, rfl⟩
  · exact ⟨s.raiseError_busy c, s.raiseError_done c⟩
  · exact ⟨(s.afterDraws i).succeed_busy _, (s.afterDraws i).succeed_done _⟩

theorem State.CommandFrame.inbox_eq {s t : State} (h : s.CommandFrame t) : t.inbox = s.inbox := by
  obtain ⟨-, -, -, -, -, hinbox, -⟩ := h
  exact hinbox

/-- A transaction held while a command is in progress (R59): Complete comes first, and the step after it performs the
transaction. -/
theorem step_of_held {s : State} {r : HostReq} {rest : List HostReq} (hl : s.ilen.toNat ≤ Config.capIn) (hb : s.busy = true)
    (hi : s.inbox = r :: rest) (hr : (r.early && r.txn.unheld) = false) :
    ∃ t, step s = .next t ∧ complete s = .next t ∧ t.busy = false ∧ t.done = true ∧ s.CommandFrame t ∧
      step t = performTxn r.txn (t.takeRequest rest) := by
  have hturn : hostTurn s = none := by rw [hostTurn_busy hb hi, hr, if_neg Bool.false_ne_true]
  obtain ⟨t, ht⟩ := complete_next_of_le hl
  obtain ⟨hidle, hdone⟩ := complete_idle_done ht
  have hframe := complete_frame ht
  exact ⟨t, (step_complete hturn hb).trans ht, ht, hidle, hdone, hframe, step_idle hidle (hframe.inbox_eq.trans hi)⟩

theorem Txn.unheld_eq_false {x : Txn} (hs : x ≠ .rdStatus) (hr : x ≠ .reset) : x.unheld = false := by
  cases x with
  | rdStatus => exact absurd rfl hs
  | reset => exact absurd rfl hr
  | _ => rfl

/-- Settles O7: a transaction that is neither RD_STATUS nor RESET is held whatever its flag. -/
theorem heldTransactionWaitsForComplete : Obligations.HeldTransactionWaitsForComplete := by
  intro s r rest hs hb hi hstatus hreset
  have hheld : (r.early && r.txn.unheld) = false := by rw [Txn.unheld_eq_false hstatus hreset, Bool.and_false]
  obtain ⟨t, hstep, hcomplete, hidle, hdone, hframe, hnext⟩ := step_of_held hs.ilen hb hi hheld
  exact ⟨t, hstep, hcomplete, hframe.inbox_eq.trans hi, hidle, hdone, hframe, hnext⟩

/-- Of the values of STATUS only 0x01 has BUSY set (R22). -/
theorem State.Inv.status_of_busy {s : State} (h : s.Inv) (hb : s.busy = true) : s.status = 0x01#8 := by
  rcases h.flags with ⟨hst, -⟩ | ⟨hst, -⟩ | ⟨hst, -⟩ | ⟨hst, -⟩
  case inr.inl => exact hst
  all_goals simp [State.busy, hst] at hb

/-- Settles O8: an early RD_STATUS has the host's turn and reads the only STATUS of a busy core; a late one is held, and meets the
STATUS of Complete. -/
theorem statusReadsBusyDuringACommand : Obligations.StatusReadsBusyDuringACommand := by
  refine ⟨fun s rest hs hb hi => ?_, fun s rest hs hb hi => ?_⟩
  · have hturn : hostTurn s = some (.rdStatus, rest) := hostTurn_busy hb hi
    rw [step_host hturn, ← hs.status_of_busy hb]
    rfl
  · obtain ⟨t, hstep, hcomplete, hidle, hdone, ⟨-, -, -, -, -, -, houtbox⟩, hnext⟩ := step_of_held hs.ilen hb hi rfl
    refine ⟨t, hstep, hcomplete, hidle, hdone, ?_⟩
    rw [hnext, ← houtbox]
    rfl

/-! ## Who changes the results -/

/-- A transaction that is neither Accept nor RESET leaves STATUS and ERRCODE; one that is not RESET leaves OLEN and OBUF. -/
theorem performTxn_results {x : Txn} {s t : State} (h : performTxn x s = .next t) :
    ((t.status = s.status ∧ t.errcode = s.errcode) ∨ x = .reset ∨ ∃ w, x = .wrCmd w) ∧
    ((t.olen = s.olen ∧ t.obuf = s.obuf) ∨ x = .reset) := by
  rcases performTxn_cases h with ⟨i, v, -, -, rfl⟩ | ⟨v, -, rfl⟩ | ⟨v, -, rfl⟩ | ⟨j, v, -, -, rfl⟩ | ⟨w, rfl, rfl⟩ |
    ⟨rfl, -⟩ | ⟨r, rfl⟩ | ⟨r, rfl⟩
  case inr.inr.inr.inr.inl => exact ⟨.inr (.inr ⟨w, rfl⟩), .inl ⟨rfl, rfl⟩⟩
  case inr.inr.inr.inr.inr.inl => exact ⟨.inr (.inl rfl), .inr rfl⟩
  all_goals exact ⟨.inl (by simp), .inl (by simp)⟩

/-- Settles O18: a transaction other than Accept and RESET keeps the results, and so does an idle core at rest. -/
theorem resultsChangeOnlyAtAcceptAndComplete : Obligations.ResultsChangeOnlyAtAcceptAndComplete := by
  intro s t h
  rcases step_cases h with ⟨x, rest, hx, hp⟩ | ⟨hturn, hb, -⟩ | ⟨-, -, rfl⟩
  · obtain ⟨hflags, hout⟩ := performTxn_results hp
    simp only [hx, Option.some.injEq, Prod.mk.injEq]
    refine ⟨fun hne => .inr ⟨rest, ?_⟩, fun hne => .inr ⟨rest, ?_⟩⟩
    · simpa using hflags.resolve_left (not_and_or.2 hne)
    · simpa using hout.resolve_left (not_and_or.2 hne)
  · exact ⟨fun _ => .inl ⟨hturn, hb⟩, fun _ => .inl ⟨hturn, hb⟩⟩
  · exact ⟨fun hne => by simp at hne, fun hne => by simp at hne⟩

end Sys2Proof.Machine
end

section
/-! PROOFS. The cipher port: the number of queries of a run of the Feistel engine, and O51, what a command asks
(spec/20_memory.md R62, R63, spec/42_fpe_feistel.md R161). -/

namespace Sys2Proof.Machine

/-! ## The queries of a run -/

/-- The queries of one round on `n` numerals: the block P, the blocks of Q, and the expansion blocks (R161). -/
def roundQueryCount (n : Nat) : Nat := 1 + (fpeZ n + 1 + fpeB n) / 16 + (ceilDiv (fpeD n) 16 - 1)

section
variable (ciph : Block → Block → Block) (k : Block)

/-- A chain sends one query a block. -/
theorem chainQueries_length (y : Block) (xs : List Block) : (chainQueries ciph k y xs).length = xs.length := by
  induction xs generalizing y with
  | nil => rfl
  | cons x xs ih => simp [chainQueries, ih]

theorem roundQueries_length (n i : Nat) (h : List Bool) : (roundQueries ciph k n i h).length = roundQueryCount n := by
  have hchain : (blocksOf (pBytes n ++ qBytes n i h)).length = 1 + (fpeZ n + 1 + fpeB n) / 16 := by
    rw [blocksOf_append (pBytes_length n), List.length_cons, blocksOf_length, qBytes_length, Nat.add_comm]
  simp [roundQueries, chainQueries_length, hchain, expansionIndices, roundQueryCount]

theorem encRoundsQueries_length (n : Nat) (order : List Nat) (ab : List Bool × List Bool) :
    (encRoundsQueries ciph k n order ab).length = order.length * roundQueryCount n := by
  induction order generalizing ab with
  | nil => simp [encRoundsQueries]
  | cons i order ih =>
    rw [encRoundsQueries, List.length_append, roundQueries_length, ih, List.length_cons, Nat.succ_mul, Nat.add_comm]

theorem decRoundsQueries_length (n : Nat) (order : List Nat) (ab : List Bool × List Bool) :
    (decRoundsQueries ciph k n order ab).length = order.length * roundQueryCount n := by
  induction order generalizing ab with
  | nil => simp [decRoundsQueries]
  | cons i order ih =>
    rw [decRoundsQueries, List.length_append, roundQueries_length, ih, List.length_cons, Nat.succ_mul, Nat.add_comm]

theorem fpeEncQueries_length (buf : List Byte) : (fpeEncQueries ciph k buf).length = queryCount buf.length := by
  cases buf with
  | nil => rfl
  | cons v buf => exact (encRoundsQueries_length _ _ _ _ _).trans (by rw [bitsLe_length]; rfl)

theorem fpeDecQueries_length (buf : List Byte) : (fpeDecQueries ciph k buf).length = queryCount buf.length := by
  cases buf with
  | nil => rfl
  | cons v buf => exact (decRoundsQueries_length _ _ _ _ _).trans (by rw [bitsLe_length]; rfl)

end

/-! ## The queries of a command -/

section
variable {i : Instr} {s : State}

theorem cmdQueries_of_error (h : commandError i s ≠ none) : cmdQueries i s = [] := by
  obtain ⟨c, hc⟩ := Option.ne_none_iff_exists'.1 h
  simp [cmdQueries, hc]

theorem cmdQueries_of_noError (h : commandError i s = none) :
    cmdQueries i s = (cipherBlocks i s).map (fun x => (s.keyBlock, x)) := by
  simp [cmdQueries, h]

/-- A command with no block for the cipher sends no query. -/
theorem cmdQueries_of_noBlocks (h : cipherBlocks i s = []) : cmdQueries i s = [] := by
  unfold cmdQueries
  split
  · rfl
  · rw [h, List.map_nil]

/-- Every query carries KEY (R62). -/
theorem cmdQueries_key {q : Block × Block} (h : q ∈ cmdQueries i s) : q.1 = s.keyBlock := by
  unfold cmdQueries at h
  split at h
  · cases h
  · obtain ⟨x, -, rfl⟩ := List.mem_map.1 h
    rfl

theorem cipherBlocks_of_unkeyed (h : keyedCommand i = false) : cipherBlocks i s = [] := by
  cases i with
  | encode | decode | genkey => rfl
  | encrypt | decrypt => cases h
  | runenc k | rundec k =>
    obtain rfl : k = false := h
    rfl

theorem cipherBlocks_of_emptyInput (h : s.inputBytes = []) : cipherBlocks i s = [] := by
  cases i with
  | encode | decode | genkey => rfl
  | encrypt | decrypt =>
    simp only [cipherBlocks, h]
    rfl
  | runenc k | rundec k =>
    cases k with
    | false => rfl
    | true =>
      simp only [cipherBlocks, h]
      rfl

/-- A keyed command with a key of sixteen bytes sends its blocks when the cipher takes the key, and nothing when it does not. -/
theorem cmdQueries_length_of_keyed (hk : keyedCommand i = true) (hlen : s.klen = 16#8) :
    (cmdQueries i s).length = if Config.ciphKeyOk s.keyBlock then (cipherBlocks i s).length else 0 := by
  have herr : commandError i s = if Config.ciphKeyOk s.keyBlock then none else some .keyRejected := by
    rw [commandError, if_pos hk, keyCheck_of_length hlen]
  cases hok : Config.ciphKeyOk s.keyBlock with
  | true => simp [cmdQueries_of_noError (i := i) (s := s) (by simp [herr, hok])]
  | false => simp [cmdQueries_of_error (i := i) (s := s) (by simp [herr, hok])]

end

/-- Settles O51: by the blocks of each command; a keyed command's are those of one run on the bytes its FPE stage sees, the input
or, in RUNENC, the packed input. -/
theorem cipherQueriesOfACommand : Obligations.CipherQueriesOfACommand := by
  intro i s
  refine ⟨fun hk => cmdQueries_of_noBlocks (cipherBlocks_of_unkeyed hk), cmdQueries_of_error, fun hl => ?_, ?_,
    fun hlen hi => ?_, fun hlen hi => ?_⟩
  · have hempty : s.inputBytes = [] := List.length_eq_zero_iff.1 (by simp [hl])
    exact cmdQueries_of_noBlocks (cipherBlocks_of_emptyInput hempty)
  · refine List.eq_replicate_iff.2 ⟨List.length_map _, fun b hb => ?_⟩
    obtain ⟨q, hq, rfl⟩ := List.mem_map.1 hb
    exact cmdQueries_key hq
  · rw [← s.inputBytes_length]
    rcases hi with rfl | rfl | rfl
    · rw [cmdQueries_length_of_keyed rfl hlen, cipherBlocks, fpeEncQueries_length]
    · rw [cmdQueries_length_of_keyed rfl hlen, cipherBlocks, fpeDecQueries_length]
    · rw [cmdQueries_length_of_keyed rfl hlen, cipherBlocks, if_pos rfl, fpeDecQueries_length]
  · subst hi
    have hpacked : (enc s.inputBytes).length = (5 * s.ilen.toNat + 7) / 8 := by
      rw [enc_length, s.inputBytes_length]
      rfl
    rw [cmdQueries_length_of_keyed rfl hlen, cipherBlocks, if_pos rfl, fpeEncQueries_length, hpacked]

end Sys2Proof.Machine
end

section
/-! PROOFS. The command words: a word decodes to a command exactly when it is the command's word, O2, the tables of words and
of script mnemonics, O1 and O3 (spec/30_encoding.md R70 to R74, R82), and the completion of an illegal word, O5
(spec/60_exceptions.md R213, R216). -/

namespace Sys2Proof.Machine

/-! ## Words and fields -/

/-- Every constructor's word carries its fields and is legal. -/
theorem encodeWord_fields (i : Instr) : Laws.WordFields.Statement i :=
  match i with
  | .encode => Laws.WordFields.encode
  | .decode => Laws.WordFields.decode
  | .encrypt => Laws.WordFields.encrypt
  | .decrypt => Laws.WordFields.decrypt
  | .runenc k => Laws.WordFields.runenc k
  | .rundec k => Laws.WordFields.rundec k
  | .genkey => Laws.WordFields.genkey

/-- The three fields of R70 cover the word. -/
theorem fields_append : ∀ w : Byte, fieldZ w ++ BitVec.ofBool (fieldK w) ++ fieldOp w = w := by decide +kernel

theorem withoutKey_eq_ok_iff {k : Bool} {i j : Instr} : withoutKey k i = .ok j ↔ k = false ∧ i = j := by
  cases k <;> simp [withoutKey]

/-- The decoder reads the fields of a word and nothing else of it (R74). -/
theorem decodeCmd_eq_ok_iff_fields {w : Byte} {i : Instr} :
    decodeCmd w = .ok i ↔ fieldZ w = 0#4 ∧ fieldK w = keyFlag i ∧ fieldOp w = opNumber i := by
  constructor
  · intro h
    unfold decodeCmd at h
    split at h
    · cases h
    · next hz =>
      refine ⟨not_not.1 hz, ?_⟩
      split at h
      case h_5 | h_6 => cases h; exact ⟨rfl, BitVec.eq_of_toNat_eq ‹_›⟩
      case h_8 => cases h
      all_goals obtain ⟨hk, rfl⟩ := withoutKey_eq_ok_iff.1 h; exact ⟨hk, BitVec.eq_of_toNat_eq ‹_›⟩
  · rintro ⟨hz, hk, hop⟩
    cases i <;> simp [decodeCmd, hz, hk, hop, keyFlag, opNumber, withoutKey]

theorem encodeWord_eq_iff_fields {w : Byte} {i : Instr} :
    encodeWord i = w ↔ fieldZ w = 0#4 ∧ fieldK w = keyFlag i ∧ fieldOp w = opNumber i := by
  constructor
  · rintro rfl
    obtain ⟨hz, hk, hop, -⟩ := encodeWord_fields i
    exact ⟨hz, hk, hop⟩
  · rintro ⟨hz, hk, hop⟩
    rw [← fields_append w, hz, hk, hop, encodeWord]

theorem decodeCmd_eq_ok_iff {w : Byte} {i : Instr} : decodeCmd w = .ok i ↔ encodeWord i = w :=
  decodeCmd_eq_ok_iff_fields.trans encodeWord_eq_iff_fields.symm

/-- Settles O2: a word that decodes to a command and the command's own word carry the same three fields. -/
theorem decodeAndEncodeAgree : Obligations.DecodeAndEncodeAgree := by
  refine ⟨fun i => ⟨decodeCmd_eq_ok_iff.2 rfl, ?_⟩, fun w i h => ⟨decodeCmd_eq_ok_iff.1 h, decodeCmd_eq_ok_iff_fields.1 h⟩⟩
  obtain ⟨-, -, -, hwf⟩ := encodeWord_fields i
  exact hwf

/-! ## The tables -/

/-- Every command, in the order of the decoding table of R74. -/
def allCommands : List Instr :=
  [.encode, .decode, .encrypt, .decrypt, .runenc false, .runenc true, .rundec false, .rundec true, .genkey]

theorem mem_allCommands (i : Instr) : i ∈ allCommands := by
  cases i with
  | runenc k | rundec k => cases k <;> decide
  | _ => decide

/-- A table that lists an entry for each command holds just those entries. -/
theorem exists_command_iff_mem_map {α : Type} (f : Instr → α) (x : α) : (∃ i, f i = x) ↔ x ∈ allCommands.map f := by
  simp [mem_allCommands]

/-- A row selects the words of the commands of its mnemonic: one word under the mask 0xFF, the two values of K under 0xF7. -/
theorem opcodeRow_selects_iff : ∀ r ∈ opcodeRows, ∀ w : Byte,
    r.selects w = true ↔ w ∈ (allCommands.filter (fun i => mnemonicOf i = r.mnemonic)).map encodeWord := by
  decide +kernel

/-- Settles O1: a word decodes to a command exactly when it is the command's word, so the table is that of the nine commands. -/
theorem commandWordsDecodeAsTabled : Obligations.CommandWordsDecodeAsTabled := by
  refine ⟨fun w i => ?_, fun w r hr => ?_, by decide +kernel⟩
  · have hpair : decodeCmd w = .ok i ↔ ∃ i', (encodeWord i', i') = (w, i) := by simp [decodeCmd_eq_ok_iff]
    exact hpair.trans (exists_command_iff_mem_map (fun i' => (encodeWord i', i')) (w, i))
  · simp [opcodeRow_selects_iff r hr, decodeCmd_eq_ok_iff, mem_allCommands, and_comm]

/-- The mnemonics of a script are those of the nine commands (R82). -/
theorem exists_scriptMnemonic_iff (m : String) (w : Byte) :
    (∃ i, scriptMnemonic i = m ∧ encodeWord i = w) ↔ (m, w) ∈ scriptWords := by
  calc (∃ i, scriptMnemonic i = m ∧ encodeWord i = w) ↔ ∃ i, (scriptMnemonic i, encodeWord i) = (m, w) := by simp
    _ ↔ (m, w) ∈ scriptWords := exists_command_iff_mem_map (fun i => (scriptMnemonic i, encodeWord i)) (m, w)

/-- Settles O3: by the table of scripts, whose pairs for RUNENC and RUNDEC differ in bit 3. -/
theorem scriptMnemonicsNameTheLegalWords : Obligations.ScriptMnemonicsNameTheLegalWords :=
  ⟨exists_scriptMnemonic_iff, exists_scriptMnemonic_iff, by decide, by decide⟩

/-! ## An illegal word -/

/-- Settles O5: the step is the Complete of an illegal word, which is the error completion of cause 3. -/
theorem illegalWordEndsInCauseThree : Obligations.IllegalWordEndsInCauseThree := by
  intro s e hb hturn hdecode
  exact ⟨s.raiseError .illegalCmd, (step_complete hturn hb).trans (complete_illegal hdecode),
    s.raiseError_failed .illegalCmd, s.raiseError_frame .illegalCmd, rfl⟩

end Sys2Proof.Machine
end

section
/-! PROOFS. The lines of a host script at an idle core: IN, KEY and OUT, O53 to O55 (spec/30_encoding.md R80 and R81,
spec/20_memory.md R50, R53, R58). -/

namespace Sys2Proof.Machine

theorem State.takeRequest_eq_self {s : State} {reqs : List HostReq} (h : s.inbox = reqs) : s.takeRequest reqs = s := by
  rw [← h]
  rfl

/-- An idle core performs the first transaction of a script and goes on with the others. -/
theorem run_script_cons {s t : State} {x : Txn} {ts : List Txn} (hb : s.busy = false)
    (h : performTxn x (s.takeRequest (scriptRequests false ts)) = .next t) (n : Nat) :
    Host.Core.run Sys2Proof.core (n + 1) (s.takeRequest (scriptRequests false (x :: ts))) =
      Host.Core.run Sys2Proof.core n t :=
  core_run_next n ((step_idle (s := s.takeRequest (scriptRequests false (x :: ts))) hb rfl).trans h)

/-! ## Writing a byte string -/

/-- A space of bytes the host writes one at a time, KEY or IBUF (R50): the write of a byte and of a byte string as transactions,
their effect, how a byte reads, and the laws of these. -/
structure ByteSpace where
  size : Nat
  txn : Nat → Byte → Txn
  txns : Nat → List Byte → List Txn
  write : State → Nat → Byte → State
  read : State → Nat → Byte
  txns_nil : ∀ i, txns i [] = []
  txns_cons : ∀ i v vs, txns i (v :: vs) = txn i v :: txns (i + 1) vs
  performTxn_txn : ∀ s {i}, i < size → ∀ v, performTxn (txn i v) s = .next (write s i v)
  write_busy : ∀ s i v, (write s i v).busy = s.busy
  write_takeRequest : ∀ s i v rest, (write s i v).takeRequest rest = write (s.takeRequest rest) i v
  read_write_self : ∀ s {i}, i < size → ∀ v, read (write s i v) i = v
  read_write_other : ∀ s {i k}, k ≠ i → ∀ v, read (write s i v) k = read s k

/-- KEY as a space of sixteen bytes (R24). -/
def keySpace : ByteSpace where
  size := 16
  txn := .wrKey
  txns := keyWrites
  write := State.writeKey
  read := State.keyByte
  txns_nil _ := rfl
  txns_cons _ _ _ := rfl
  performTxn_txn s i h v := by rw [performTxn_wrKey, if_pos h]
  write_busy _ _ _ := rfl
  write_takeRequest _ _ _ _ := rfl
  read_write_self s _ := s.writeKey_keyByte_self
  read_write_other s _ _ := s.writeKey_keyByte_other

/-- IBUF as a space of CAP_IN bytes (R28). -/
def ibufSpace : ByteSpace where
  size := Config.capIn
  txn := .wrIbuf
  txns := ibufWrites
  write := State.writeIbuf
  read := State.ibufByte
  txns_nil _ := rfl
  txns_cons _ _ _ := rfl
  performTxn_txn s i h v := by rw [performTxn_wrIbuf, if_pos h]
  write_busy _ _ _ := rfl
  write_takeRequest _ _ _ _ := rfl
  read_write_self s i _ := s.writeIbuf_ibufByte_self i
  read_write_other s _ _ := s.writeIbuf_ibufByte_other

namespace ByteSpace

/-- The bytes of a list written one after the other from an index on. -/
def writeFrom (b : ByteSpace) : State → Nat → List Byte → State
  | s, _, [] => s
  | s, i, v :: vs => b.writeFrom (b.write s i v) (i + 1) vs

variable (b : ByteSpace)

/-- What no write of one byte changes, the write of a byte string does not change. -/
theorem writeFrom_keeps {β : Type} (f : State → β) (hf : ∀ s i v, f (b.write s i v) = f s) (s : State)
    (i : Nat) (bs : List Byte) : f (b.writeFrom s i bs) = f s := by
  induction bs generalizing s i with
  | nil => rfl
  | cons v vs ih => exact (ih (b.write s i v) (i + 1)).trans (hf s i v)

theorem read_writeFrom_of_lt (s : State) {i k : Nat} (bs : List Byte) (hk : k < i) :
    b.read (b.writeFrom s i bs) k = b.read s k := by
  induction bs generalizing s i with
  | nil => rfl
  | cons v vs ih => exact (ih _ (by omega)).trans (b.read_write_other s hk.ne v)

/-- A byte string is read back where it was written. -/
theorem read_writeFrom (s : State) {i k : Nat} {bs : List Byte} (hi : i + bs.length ≤ b.size) (hk : k < bs.length) :
    b.read (b.writeFrom s i bs) (i + k) = bs[k] := by
  induction bs generalizing s i k with
  | nil => cases hk
  | cons v vs ih =>
    rw [List.length_cons] at hi hk
    cases k with
    | zero => exact (b.read_writeFrom_of_lt _ vs (Nat.lt_succ_self i)).trans (b.read_write_self s (by omega) v)
    | succ k =>
      have := ih (b.write s i v) (i := i + 1) (k := k) (by omega) (by omega)
      rwa [Nat.add_right_comm] at this

theorem read_writeFrom_zero (s : State) {k : Nat} {bs : List Byte} (hl : bs.length ≤ b.size) (hk : k < bs.length) :
    b.read (b.writeFrom s 0 bs) k = bs[k] := by
  simpa using b.read_writeFrom s (i := 0) (by omega) hk

/-- At an idle core the transactions that write a byte string write it, and the script goes on. -/
theorem run_txns {s : State} {i : Nat} {bs : List Byte} (hb : s.busy = false) (hl : i + bs.length ≤ b.size)
    (ts : List Txn) (n : Nat) :
    Host.Core.run Sys2Proof.core (bs.length + n) (s.takeRequest (scriptRequests false (b.txns i bs ++ ts))) =
      Host.Core.run Sys2Proof.core n ((b.writeFrom s i bs).takeRequest (scriptRequests false ts)) := by
  induction bs generalizing s i with
  | nil =>
    rw [b.txns_nil, List.length_nil, Nat.zero_add]
    rfl
  | cons v vs ih =>
    rw [List.length_cons] at hl
    have hv := b.performTxn_txn (s.takeRequest (scriptRequests false (b.txns (i + 1) vs ++ ts))) (by omega : i < b.size) v
    rw [← b.write_takeRequest] at hv
    rw [b.txns_cons, List.length_cons, Nat.add_right_comm]
    exact (run_script_cons hb hv _).trans (ih ((b.write_busy s i v).trans hb) (by omega))

/-- At an idle core a line that writes a byte string from index 0 on and ends in one more write leaves the effect of both. -/
theorem run_line {s t : State} {bs : List Byte} {x : Txn} (hb : s.busy = false) (hl : bs.length ≤ b.size)
    (hi : s.inbox = scriptRequests false (b.txns 0 bs ++ [x]))
    (hx : performTxn x ((b.writeFrom s 0 bs).takeRequest []) = .next t) :
    Host.Core.run Sys2Proof.core (bs.length + 1) s = .next t := by
  have hidle : (b.writeFrom s 0 bs).busy = false := (b.writeFrom_keeps State.busy b.write_busy s 0 bs).trans hb
  rw [← State.takeRequest_eq_self hi]
  exact (b.run_txns hb (by rwa [Nat.zero_add]) [x] 1).trans (run_script_cons hidle hx 0)

end ByteSpace

/-! ## IN and KEY -/

theorem State.inputBytes_eq {s : State} {bs : List Byte} (hl : s.ilen.toNat = bs.length)
    (hb : ∀ k (hk : k < bs.length), s.ibufByte k = bs[k]) : s.inputBytes = bs :=
  List.ext_getElem (by rw [s.inputBytes_length, hl]) fun k _ hk => by simp [State.inputBytes, hb k hk]

theorem State.key_toList_eq {s : State} {bs : List Byte} (hl : bs.length = 16)
    (hb : ∀ k (hk : k < bs.length), s.keyByte k = bs[k]) : s.key.toList = bs := by
  refine List.ext_getElem (by simp [hl]) fun k hk hk' => ?_
  rw [← hb k hk']
  simp [State.keyByte, ← hl, hk']

/-- Settles O53: IBUF takes the bytes from index 0 on, and then ILEN their number, which CAP_IN admits. -/
theorem inLineLoadsTheInput : Obligations.InLineLoadsTheInput := by
  intro s bs hb hl hi
  have hn : (BitVec.ofNat 32 bs.length).toNat = bs.length := Nat.mod_eq_of_lt (by have := Config.capIn_le; omega)
  have hlast : performTxn (.wrIlen (BitVec.ofNat 32 bs.length)) ((ibufSpace.writeFrom s 0 bs).takeRequest []) = _ :=
    congrArg Host.Outcome.next (State.writeIlen_of_le _ (hn.trans_le hl))
  refine ⟨_, ibufSpace.run_line hb hl hi hlast, State.inputBytes_eq hn fun k hk => ?_, rfl, ?_⟩
  · exact ibufSpace.read_writeFrom_zero s hl hk
  · have keeps {β : Type} (f : State → β) (hf : ∀ s i v, f (ibufSpace.write s i v) = f s) :=
      ibufSpace.writeFrom_keeps f hf s 0 bs
    exact ⟨keeps State.key fun _ _ _ => rfl, keeps State.klen fun _ _ _ => rfl, keeps State.status fun _ _ _ => rfl,
      keeps State.olen fun _ _ _ => rfl, keeps State.obuf fun _ _ _ => rfl⟩

/-- Settles O54: KEY takes the sixteen bytes, and then KLEN their number. -/
theorem keyLineLoadsTheKey : Obligations.KeyLineLoadsTheKey := by
  intro s bs hb hl hi
  have htake : bs.take 16 = bs := List.take_of_length_le hl.le
  rw [lineKey, htake, hl] at hi
  have hrun := keySpace.run_line hb hl.le hi rfl
  rw [hl] at hrun
  have hkey : (keySpace.writeFrom s 0 bs).key.toList = bs :=
    State.key_toList_eq hl fun k hk => keySpace.read_writeFrom_zero s hl.le hk
  exact ⟨_, hrun, hkey, congrArg blockOf hkey, rfl, rfl,
    keySpace.writeFrom_keeps State.inputBytes (fun _ _ _ => rfl) s 0 bs,
    keySpace.writeFrom_keeps State.status (fun _ _ _ => rfl) s 0 bs⟩

/-! ## OUT -/

/-- At an idle core the reads of OBUF bytes that have a value reply with their values, and nothing else changes. -/
theorem run_rdObufs {s : State} {out : Nat → Byte} {js : List Nat} (hb : s.busy = false)
    (hj : ∀ j ∈ js, j < Config.capOut ∧ s.obufByte j = some (out j)) :
    Host.Core.run Sys2Proof.core js.length (s.takeRequest (scriptRequests false (js.map Txn.rdObuf))) =
      .next { s with inbox := [], outbox := s.outbox ++ js.map (fun j => .obuf j (out j)) } := by
  induction js generalizing s with
  | nil =>
    simp only [List.map_nil, List.append_nil]
    rfl
  | cons j js ih =>
    obtain ⟨⟨hcap, hval⟩, hjs⟩ := List.forall_mem_cons.1 hj
    have hread := performTxn_rdObuf_some (s.takeRequest (scriptRequests false (js.map Txn.rdObuf))) hcap hval
    have hrest := ih (s := s.reply (.obuf j (out j))) hb hjs
    rw [State.reply_outbox, List.append_assoc] at hrest
    exact (run_script_cons hb hread _).trans hrest

theorem outBytes_map_obuf (out : Nat → Byte) (js : List Nat) : outBytes (js.map (fun j => .obuf j (out j))) = js.map out := by
  induction js with
  | nil => rfl
  | cons j js ih => rw [List.map_cons, outBytes, ih, List.map_cons]

/-- Settles O55: OLEN is the first reply; every byte read after it lies below OLEN, so its value is that of the output. -/
theorem outLineReadsTheOutput : Obligations.OutLineReadsTheOutput := by
  intro s out hs hb hd hi
  obtain ⟨hlen, hbytes⟩ := hd
  obtain ⟨-, hcap⟩ := hs.obuf
  have hj : ∀ j ∈ List.range out.length, j < Config.capOut ∧ s.obufByte j = some (out.getD j 0#8) := by
    intro j hj
    have hlt := List.mem_range.1 hj
    exact ⟨by omega, by simp [hbytes, hlt]⟩
  have hreads := run_rdObufs (s := s.reply (.olen s.olen)) hb hj
  rw [List.length_range, State.reply_outbox, List.append_assoc] at hreads
  rw [← State.takeRequest_eq_self hi]
  refine ⟨_, (run_script_cons hb rfl _).trans hreads, rfl, _, rfl, ?_, rfl, rfl⟩
  calc outBytes ((List.range out.length).map (fun j => .obuf j (out.getD j 0#8)))
      = (List.range out.length).map (fun j => out.getD j 0#8) := outBytes_map_obuf _ _
    _ = out := List.ext_getElem (by simp) fun k _ hk => by simp [hk]

end Sys2Proof.Machine
end

section
/-! PROOFS. The laws of the mapper, O19 (spec/40_mapper.md R96 and R98). -/

namespace Sys2Proof.Machine

/-! ## Folding -/

theorem caseFold_of_capital {c : Byte} (h : 0x41#8 ≤ c ∧ c ≤ 0x5A#8) : caseFold c = c + 0x20#8 := if_pos h

theorem caseFold_of_not_capital {c : Byte} (h : ¬ (0x41#8 ≤ c ∧ c ≤ 0x5A#8)) : caseFold c = c := if_neg h

/-- A folded capital is a small letter, so no capital. -/
@[simp] theorem caseFold_caseFold (c : Byte) : caseFold (caseFold c) = caseFold c := by
  by_cases h : 0x41#8 ≤ c ∧ c ≤ 0x5A#8
  · rw [caseFold_of_capital h]
    exact caseFold_of_not_capital (by bv_omega)
  · rw [caseFold_of_not_capital h, caseFold_of_not_capital h]

/-- Law 5 of R96. -/
@[simp] theorem s2c_caseFold (c : Byte) : s2c (caseFold c) = s2c c := by
  simp only [s2c, caseFold_caseFold]

/-! ## Symbol bytes and the codes below 31 -/

/-- UNK_CHAR is drawn from the bytes that are no symbol byte (R96). -/
theorem unkChar_notMem_symbolBytes : Config.unkChar ∉ Config.symbolBytes := by
  have hmem : Config.unkChar ∈ Config.unkBytes := List.getElem_mem _
  simpa using (List.mem_filter.1 hmem).2

theorem c2s_mem_symbolBytes (unk : Byte) {k : Code} (h : k ≠ 31#5) : c2s unk k ∈ Config.symbolBytes := by
  rw [c2s_congr_unk unk 0x00#8 h]
  exact List.mem_of_getElem? (symbolBytes_getElem? k h)

theorem s2c_c2s (unk : Byte) {k : Code} (h : k ≠ 31#5) : s2c (c2s unk k) = k := by
  have hcodes : ∀ k : Code, k ≠ 31#5 → s2c (c2s 0x00#8 k) = k := by decide
  rw [c2s_congr_unk unk 0x00#8 h, hcodes k h]

/-- The byte of a character's code, where the code is another than 31, is the character, folded. -/
theorem c2s_s2c (unk : Byte) {c : Byte} (h : s2c c ≠ 31#5) : c2s unk (s2c c) = caseFold c := by
  simp only [s2c] at h ⊢
  split_ifs at h ⊢ with hletter hspace hcomma hperiod hcolon hfeed
  · have hcode : (caseFold c - 0x61#8).setWidth 5 ≤ 25#5 := by bv_omega
    rw [c2s, if_pos hcode]
    bv_omega
  · rw [hspace]; rfl
  · rw [hcomma]; rfl
  · rw [hperiod]; rfl
  · rw [hcolon]; rfl
  · rw [hfeed]; rfl
  · exact absurd rfl h

/-! ## Code 31 -/

@[simp] theorem c2s_marker (unk : Byte) : c2s unk 31#5 = unk := rfl

/-- Code 31 is that of the characters outside the alphabet (R94). -/
theorem s2c_eq_marker_iff (c : Byte) : s2c c = 31#5 ↔ caseFold c ∉ Config.symbolBytes := by
  have hsymbols : ∀ b ∈ Config.symbolBytes, s2c b ≠ 31#5 := by decide
  constructor
  · intro hc hmem
    exact hsymbols _ hmem (s2c_caseFold c ▸ hc)
  · intro hmem
    by_contra hc
    exact hmem (c2s_s2c 0x00#8 hc ▸ c2s_mem_symbolBytes 0x00#8 hc)

theorem s2c_ne_marker_of_capital {c : Byte} (h : 0x41#8 ≤ c ∧ c ≤ 0x5A#8) : s2c c ≠ 31#5 := by
  have hletter : 0x61#8 ≤ c + 0x20#8 ∧ c + 0x20#8 ≤ 0x7A#8 := by bv_omega
  rw [s2c, caseFold_of_capital h, if_pos hletter]
  bv_omega

/-- The bytes of code 31 are the entries 31 of the S2C ROM: those outside its two ranges of letters and its five other symbols. -/
theorem marker_count : ((List.range 256).filter (fun n => decide (s2c (BitVec.ofNat 8 n) = 31#5))).length = 199 := by
  have hletters : ((List.range 26).map (BitVec.ofNat 5)).countP (· = 31#5) = 0 := by decide
  have hrom : s2cRom.countP (· = 31#5) = 199 := by
    simp only [s2cRom, List.countP_append, List.countP_replicate, hletters]
    decide
  rwa [s2cRom_eq_map, List.countP_map, List.countP_eq_length_filter] at hrom

section
variable {unk : Byte} (hunk : unk ∉ Config.symbolBytes)
include hunk

/-- Law 1 of R96: two codes other than 31 are read back by S2C, and UNK_CHAR is not the byte of such a code. -/
theorem c2s_injective : Function.Injective (c2s unk) := by
  have hmarker : ∀ k : Code, c2s unk k = unk → k = 31#5 := fun k hk => by
    by_contra hne
    exact hunk (hk ▸ c2s_mem_symbolBytes unk hne)
  intro k k' h
  by_cases hk : k = 31#5
  · subst hk
    exact (hmarker k' h.symm).symm
  by_cases hk' : k' = 31#5
  · subst hk'
    exact hmarker k h
  rw [← s2c_c2s unk hk, h, s2c_c2s unk hk']

/-- Law 3 of R96: a capital is read as a letter; another UNK_CHAR is its own fold, so it stays outside the alphabet. -/
theorem s2c_unk_eq_marker_iff : s2c unk = 31#5 ↔ ¬ (0x41#8 ≤ unk ∧ unk ≤ 0x5A#8) := by
  constructor
  · exact fun h hcap => s2c_ne_marker_of_capital hcap h
  · intro hcap
    rwa [s2c_eq_marker_iff, caseFold_of_not_capital hcap]

end

/-- Settles O19: S2C and C2S undo each other outside code 31, and the bytes of code 31 are those outside the alphabet. -/
theorem mapperLaws : Obligations.MapperLaws := by
  refine ⟨unkChar_notMem_symbolBytes, fun unk hunk => ⟨fun k k' h => c2s_injective hunk h, fun k => s2c_c2s unk,
    s2c_unk_eq_marker_iff hunk, fun c hc => ?_, fun c hc => ?_⟩, fun c => (s2c_caseFold c).symm, marker_count⟩
  · exact c2s_s2c unk fun h => (s2c_eq_marker_iff c).1 h hc
  · rw [(s2c_eq_marker_iff c).2 hc, c2s_marker]

end Sys2Proof.Machine
end

section
/-! PROOFS. The gearbox as a regrouping of one bit stream: where each bit lies, the closed forms as numbers, and what packing and
unpacking do to each other, O21 to O27 (spec/41_gearbox_codec.md R110 to R118 and R121). -/

namespace Sys2Proof.Machine

/-! ## The bit stream of a sequence of groups -/

section
variable {α : Type} {f : α → List Bool} {w : Nat}

/-- Item `i` of a sequence holds the bits from `w * i` on of its stream. -/
theorem flatMap_getElem?_group (hw : ∀ a, (f a).length = w) (l : List α) (i : Nat) {r : Nat} (hr : r < w) :
    (l.flatMap f)[w * i + r]? = l[i]?.bind (fun a => (f a)[r]?) := by
  induction l generalizing i with
  | nil => simp
  | cons a l ih =>
    cases i with
    | zero => simp [List.getElem?_append_left (hr.trans_eq (hw a).symm)]
    | succ i =>
      have hpast : (f a).length ≤ w * (i + 1) + r := by rw [hw, Nat.mul_succ]; omega
      have hrest : w * (i + 1) + r - w = w * i + r := by rw [Nat.mul_succ]; omega
      simp [List.getElem?_append_right hpast, hw, hrest, ih]

/-- The number of a stream has the items as its digits in base `2 ^ w`, the first most significant. -/
theorem num2_flatMap {g : α → Nat} (hw : ∀ a, (f a).length = w) (hg : ∀ a, num2 (f a) = g a) (l : List α) :
    num2 (l.flatMap f) = l.foldl (fun acc a => 2 ^ w * acc + g a) 0 := by
  induction l using List.reverseRecOn with
  | nil => rfl
  | append_singleton l a ih => simp [num2_append, ih, hw, hg, Nat.mul_comm]

end

theorem codeBits_getElem? (k : Code) {r : Nat} (hr : r ≤ 4) : (codeBits k)[r]? = some (k.getLsbD (4 - r)) := by
  interval_cases r <;> rfl

theorem byteBits_getElem? (v : Byte) {r : Nat} (hr : r ≤ 7) : (byteBits v)[r]? = some (v.getLsbD (7 - r)) := by
  interval_cases r <;> rfl

theorem bits5_getElem? (cs : List Code) (i : Nat) {r : Nat} (hr : r ≤ 4) :
    (bits5 cs)[5 * i + r]? = cs[i]?.map (fun k => k.getLsbD (4 - r)) := by
  simp [bits5, flatMap_getElem?_group codeBits_length cs i (by omega : r < 5), codeBits_getElem? _ hr, Option.map_eq_bind]

theorem byteBits_flatMap_getElem? (b : List Byte) (k : Nat) {r : Nat} (hr : r ≤ 7) :
    (b.flatMap byteBits)[8 * k + r]? = b[k]?.map (fun v => v.getLsbD (7 - r)) := by
  simp [flatMap_getElem?_group byteBits_length b k (by omega : r < 8), byteBits_getElem? _ hr, Option.map_eq_bind]

theorem num2_bits5 (c : List Code) : num2 (bits5 c) = c.foldl (fun acc k => 32 * acc + k.toNat) 0 :=
  num2_flatMap codeBits_length num2_codeBits c

theorem num2_byteBits_flatMap (b : List Byte) : num2 (b.flatMap byteBits) = numB b :=
  num2_flatMap byteBits_length num2_byteBits b

theorem num2_replicate_false (p : Nat) : num2 (List.replicate p false) = 0 := by
  induction p with
  | zero => rfl
  | succ p ih => simp [List.replicate_succ', ih]

theorem num2_take (x : List Bool) (n : Nat) : num2 (x.take n) = num2 x / 2 ^ (x.length - n) := by
  have hlow := num2_lt (x.drop n)
  have hx := num2_append (x.take n) (x.drop n)
  rw [List.take_append_drop] at hx
  rw [List.length_drop] at hx hlow
  rw [hx, Nat.mul_comm, Nat.mul_add_div (Nat.two_pow_pos _), Nat.div_eq_of_lt hlow, Nat.add_zero]

theorem codesOfBits_bits5 (c : List Code) : codesOfBits (bits5 c) = c := by
  simpa [codesOfBits] using codesOfBits_bits5_append c []

/-- A code sequence is determined by its stream. -/
theorem bits5_injective : Function.Injective bits5 := Function.LeftInverse.injective codesOfBits_bits5

/-- A byte sequence is determined by its stream. -/
theorem byteBits_flatMap_injective : Function.Injective (fun b : List Byte => b.flatMap byteBits) :=
  Function.LeftInverse.injective bytesOfBits_byteBits

/-- Cutting a stream into codes keeps its whole groups and drops the rest (R114, R115). -/
theorem bits5_codesOfBits_eq_take (x : List Bool) : bits5 (codesOfBits x) = x.take (5 * (x.length / 5)) := by
  have hwhole : (x.take (5 * (x.length / 5))).length % 5 = 0 := by rw [List.length_take]; omega
  have hrest : codesOfBits (x.drop (5 * (x.length / 5))) = [] :=
    codesOfBits_short (by rw [List.length_drop]; omega)
  have hcodes := codesOfBits_bits5_append (codesOfBits (x.take (5 * (x.length / 5)))) (x.drop (5 * (x.length / 5)))
  rw [bits5_codesOfBits hwhole, List.take_append_drop, hrest, List.append_nil] at hcodes
  rw [hcodes, bits5_codesOfBits hwhole]

/-- The bits of the unpacked codes are the bits of the bytes up to the tail. -/
theorem bits5_unpack5 (b : List Byte) : bits5 (unpack5 b) = (b.flatMap byteBits).take (5 * (8 * b.length / 5)) := by
  rw [unpack5, bits5_codesOfBits_eq_take, byteBits_flatMap_length]

/-! ## Lengths, pad and tail -/

theorem packedLen_eq (n : Nat) : packedLen n = (5 * n + 7) / 8 := rfl

theorem padBits_eq (n : Nat) : padBits n = 8 * ((5 * n + 7) / 8) - 5 * n := rfl

theorem unpack5_length_eq (b : List Byte) : (unpack5 b).length = 8 * b.length / 5 := unpack5_length b

theorem padBits_table (n : Nat) : padBits n = [0, 3, 6, 1, 4, 7, 2, 5][n % 8]! := by
  rw [padBits_eq]
  have hmod : n % 8 < 8 := Nat.mod_lt n (by omega)
  interval_cases h : n % 8 <;> simp only [List.getElem!_cons_zero, List.getElem!_cons_succ] <;> omega

theorem five_le_padBits_iff (n : Nat) : 5 ≤ padBits n ↔ n % 8 = 2 ∨ n % 8 = 5 ∨ n % 8 = 7 := by
  rw [padBits_table]
  have hmod : n % 8 < 8 := Nat.mod_lt n (by omega)
  interval_cases n % 8 <;> simp

theorem tailBits_table (l : Nat) : 8 * l - 5 * (8 * l / 5) = [0, 3, 1, 4, 2][l % 5]! := by
  have hmod : l % 5 < 5 := Nat.mod_lt l (by omega)
  interval_cases h : l % 5 <;> simp only [List.getElem!_cons_zero, List.getElem!_cons_succ] <;> omega

/-! ## Where the bits lie -/

/-- Settles O21: the stream of the packed bytes is the stream of the codes, then the pad. -/
theorem packedBitsLieWhereTheRulesSay : Obligations.PackedBitsLieWhereTheRulesSay := by
  intro c
  refine ⟨bits5_length c, fun i r => bits5_getElem? c i, pack5_length c, fun k r hk hr => ?_, padBits_eq _, padBits_table _, rfl,
    by decide⟩
  rw [← byteBits_flatMap_getElem? _ k hr, byteBits_pack5]
  split
  case isTrue h => rw [List.getElem?_append_left h, List.getElem?_eq_getElem h]
  case isFalse h =>
    have hpad : 8 * k + r - (bits5 c).length < padBits c.length := by rw [bits5_length] at h ⊢; rw [padBits_eq]; omega
    rw [List.getElem?_append_right (by omega), List.getElem?_replicate_of_lt hpad]

/-- Byte sequences of one length that agree on the bits before the tail unpack to the same codes (R115). -/
theorem unpack5_congr {b b' : List Byte} (hlen : b'.length = b.length)
    (hbits : ∀ k r, 8 * k + r < 5 * (8 * b.length / 5) → r ≤ 7 →
      b[k]?.map (fun v => v.getLsbD (7 - r)) = b'[k]?.map (fun v => v.getLsbD (7 - r))) :
    unpack5 b = unpack5 b' := by
  apply bits5_injective
  rw [bits5_unpack5, bits5_unpack5, hlen]
  apply List.ext_getElem?
  intro j
  rw [List.getElem?_take, List.getElem?_take]
  split
  case isTrue hj =>
    have hr : j % 8 ≤ 7 := by omega
    rw [← Nat.div_add_mod j 8] at hj ⊢
    rw [byteBits_flatMap_getElem? b _ hr, byteBits_flatMap_getElem? b' _ hr, hbits _ _ hj hr]
  case isFalse => rfl

/-- Settles O22: the stream of the codes is the stream of the bytes without its tail. -/
theorem unpackedBitsLieWhereTheRulesSay : Obligations.UnpackedBitsLieWhereTheRulesSay := by
  intro b
  refine ⟨unpack5_length_eq b, fun i r k r' hi hr hr' hj => ?_, fun b' => unpack5_congr, tailBits_table _, rfl, by decide⟩
  rw [← bits5_getElem? _ i hr, bits5_unpack5, List.getElem?_take_of_lt (by omega), hj, byteBits_flatMap_getElem? b k hr']

/-! ## The closed forms -/

/-- Settles O23: the bytes are determined by the number they hold, which is that of the codes, shifted by the pad. -/
theorem packIsBaseThirtyTwo : Obligations.PackIsBaseThirtyTwo := by
  intro c
  have hnum : numB (pack5 c) = num2 (bits5 c) * 2 ^ padBits c.length := by
    rw [← num2_byteBits_flatMap, byteBits_pack5, num2_append, num2_replicate_false, List.length_replicate, Nat.add_zero]
  rw [← num2_bits5, ← hnum, ← pack5_length, be_numB]

/-- Settles O24: dropping the tail of the stream divides its number. -/
theorem unpackIsBaseThirtyTwo : Obligations.UnpackIsBaseThirtyTwo := by
  intro b
  refine ⟨unpack5_length_eq b, ?_⟩
  rw [← num2_bits5, bits5_unpack5, num2_take, num2_byteBits_flatMap, byteBits_flatMap_length]

/-! ## Packing and unpacking undo each other up to the pad and the tail -/

/-- Unpacking reads the codes back, and then what codes the pad holds. -/
theorem unpack5_pack5 (c : List Code) :
    unpack5 (pack5 c) = c ++ codesOfBits (List.replicate (padBits c.length) false) := by
  rw [unpack5, byteBits_pack5, codesOfBits_bits5_append]

theorem unpack5_pack5_of_pad_le {c : List Code} (h : padBits c.length ≤ 4) : unpack5 (pack5 c) = c := by
  rw [unpack5_pack5, codesOfBits_short (by rw [List.length_replicate]; omega), List.append_nil]

theorem unpack5_pack5_of_le_pad {c : List Code} (h : 5 ≤ padBits c.length) : unpack5 (pack5 c) = c ++ [0#5] := by
  have hpad : padBits c.length ≤ 7 := by rw [padBits_eq]; omega
  rw [unpack5_pack5]
  interval_cases padBits c.length <;> rfl

/-- Settles O25: the pad holds no whole code, or one. -/
theorem unpackAfterPack : Obligations.UnpackAfterPack :=
  fun c => ⟨unpack5_pack5_of_pad_le, unpack5_pack5_of_le_pad, five_le_padBits_iff c.length⟩

/-- Clearing the low bits of a byte replaces the end of its bits with zero bits. -/
theorem byteBits_clearLow (v : Byte) {t : Nat} (ht : t ≤ 4) :
    byteBits ((v >>> t) <<< t) = (byteBits v).take (8 - t) ++ List.replicate t false := by
  interval_cases t <;> simp [byteBits]

theorem clearLow_eq_self_iff (v : Byte) (t : Nat) : (v >>> t) <<< t = v ↔ ∀ r, r < t → v.getLsbD r = false := by
  constructor
  · intro h r hr
    rw [← h, BitVec.getLsbD_shiftLeft]
    simp [hr]
  · intro h
    apply BitVec.eq_of_getLsbD_eq
    intro i hi
    by_cases hit : i < t
    · simp [hit, h i hit]
    · simp [hi, hit, Nat.add_sub_cancel' (Nat.le_of_not_lt hit)]

theorem pack5_unpack5_concat (b : List Byte) (v : Byte) :
    pack5 (unpack5 (b ++ [v])) = b ++ [(v >>> (8 * (b.length + 1) % 5)) <<< (8 * (b.length + 1) % 5)] := by
  apply byteBits_flatMap_injective
  have hkept : 5 * (8 * (b.length + 1) / 5) = (b.flatMap byteBits).length + (8 - 8 * (b.length + 1) % 5) := by
    rw [byteBits_flatMap_length]; omega
  have hpad : padBits (8 * (b.length + 1) / 5) = 8 * (b.length + 1) % 5 := by rw [padBits_eq]; omega
  simp only [byteBits_pack5, bits5_unpack5, unpack5_length_eq, List.length_append, List.length_singleton, hpad, hkept,
    List.flatMap_append, List.flatMap_singleton, List.take_length_add_append, List.append_assoc]
  rw [byteBits_clearLow v (by omega)]

/-- Settles O26: the bits dropped are the last of the last byte, and the pad puts zero bits in their place. -/
theorem packAfterUnpack : Obligations.PackAfterUnpack := by
  refine ⟨rfl, fun b v => ⟨pack5_unpack5_concat b v, ?_⟩⟩
  rw [pack5_unpack5_concat, List.append_cancel_left_eq, List.singleton_inj, clearLow_eq_self_iff]

/-- Settles O27: sequences of one length have one pad, so equal bytes have equal code streams. -/
theorem packIsInjectiveOnOneLength : Obligations.PackIsInjectiveOnOneLength := by
  refine ⟨fun c c' hlen h => bits5_injective ?_, by decide, by decide⟩
  have hbits := congrArg (fun b => b.flatMap byteBits) h
  simp only [byteBits_pack5, hlen] at hbits
  exact List.append_cancel_right hbits

end Sys2Proof.Machine
end

section
/-! PROOFS. The gearbox datapaths on ACC and CNT, O28 and O29: the registers hold the bits that have come in and not left, and
each step keeps the stream of what has left followed by what is held (spec/41_gearbox_codec.md R119 and R120). -/

namespace Sys2Proof.Machine

/-! ## The bits the gearbox registers hold -/

/-- CNT counts the bits of `x`, and ACC holds them as a number (spec/10_state.md R34). -/
def Datapath.Holds (d : Datapath) (x : List Bool) : Prop := d.cnt.val = x.length ∧ d.acc.toNat = num2 x

theorem Datapath.clearGearbox_holds (d : Datapath) (stg : Stage) : (d.clearGearbox stg).Holds [] := ⟨rfl, rfl⟩

/-- Shifting a code or a byte in appends its bits. -/
theorem Datapath.Holds.shiftIn {d : Datapath} {x y : List Bool} {w : Nat} {k : BitVec w} (h : d.Holds x) (hy : y.length = w)
    (hk : num2 y = k.toNat) (hroom : x.length + w ≤ 12) :
    Datapath.Holds { d with acc := (d.acc <<< w) ||| k.setWidth 12, cnt := Fin.ofNat 13 (d.cnt.val + w) } (x ++ y) := by
  obtain ⟨hcnt, hacc⟩ := h
  have hfit : d.acc.toNat < 2 ^ (12 - w) :=
    hacc.trans_lt ((num2_lt x).trans_le (Nat.pow_le_pow_right (by omega) (by omega)))
  constructor
  · simp only [Fin.val_ofNat, hcnt, List.length_append, hy]
    omega
  · rw [shiftIn_toNat _ _ (by omega) hfit, hacc, num2_append, hk, hy]

/-- Keeping the low bits keeps the last bits held. -/
theorem Datapath.Holds.keepLow {d : Datapath} {x y : List Bool} (h : d.Holds (x ++ y)) (hy : y.length ≤ 12) :
    Datapath.Holds { d with acc := lowBits d.acc y.length, cnt := Fin.ofNat 13 y.length } y := by
  obtain ⟨-, hacc⟩ := h
  constructor
  · simp only [Fin.val_ofNat]
    omega
  · rw [lowBits_toNat hy, hacc, num2_append, Nat.mul_add_mod_of_lt (num2_lt y)]

/-- What leaves at the top of ACC is the first bits held. -/
theorem Datapath.Holds.top_toNat {d : Datapath} {x y : List Bool} (h : d.Holds (x ++ y)) :
    ((d.acc >>> y.length).setWidth x.length).toNat = num2 x := by
  obtain ⟨-, hacc⟩ := h
  rw [BitVec.toNat_setWidth, BitVec.toNat_ushiftRight, Nat.shiftRight_eq_div_pow, hacc, num2_append, Nat.mul_comm,
    Nat.mul_add_div (Nat.two_pow_pos _), Nat.div_eq_of_lt (num2_lt y), Nat.add_zero, Nat.mod_eq_of_lt (num2_lt x)]

theorem byteBits_eq_of_toNat {v : Byte} {x : List Bool} (hx : x.length = 8) (hv : v.toNat = num2 x) : byteBits v = x :=
  num2_inj hx.symm ((num2_byteBits v).trans hv)

theorem codeBits_eq_of_toNat {k : Code} {x : List Bool} (hx : x.length = 5) (hk : k.toNat = num2 x) : codeBits k = x :=
  num2_inj hx.symm ((num2_codeBits k).trans hk)

/-! ## The packer -/

/-- A code through the packer: the bits that leave and the bits held are those held before and those of the code. -/
theorem packCode_holds {d : Datapath} {x : List Bool} (h : d.Holds x) (hx : x.length ≤ 7) (k : Code) :
    ∃ y, y.length ≤ 7 ∧ (packCode d k).1.Holds y ∧ (packCode d k).2.flatMap byteBits ++ y = x ++ codeBits k := by
  have hin := h.shiftIn (codeBits_length k) (num2_codeBits k) (by omega)
  have hcnt : d.cnt.val + 5 = (x ++ codeBits k).length := by rw [h.1, List.length_append, codeBits_length]
  have hlen : (x ++ codeBits k).length ≤ 12 := by rw [List.length_append, codeBits_length]; omega
  rw [hcnt] at hin
  rw [packCode, hcnt]
  split
  case isTrue hfull =>
    have htop : ((x ++ codeBits k).take 8).length = 8 := by rw [List.length_take]; omega
    have hrest : ((x ++ codeBits k).drop 8).length = (x ++ codeBits k).length - 8 := List.length_drop
    rw [← List.take_append_drop 8 (x ++ codeBits k)] at hin
    refine ⟨(x ++ codeBits k).drop 8, by omega, ?_, ?_⟩
    · simpa only [hrest] using hin.keepLow (by omega)
    · have hbits := hin.top_toNat
      rw [htop, hrest] at hbits
      rw [List.flatMap_singleton, byteBits_eq_of_toNat htop hbits, List.take_append_drop]
  case isFalse hroom => exact ⟨x ++ codeBits k, by omega, hin, rfl⟩

/-- The flush completes the bits held with zero bits to a byte. -/
theorem packFlush_holds {d : Datapath} {x : List Bool} (h : d.Holds x) (hx : x.length ≤ 7) :
    ∃ p ≤ 7, (packFlush d).flatMap byteBits = x ++ List.replicate p false := by
  obtain ⟨hcnt, hacc⟩ := h
  rw [packFlush, hcnt]
  split
  case isTrue hpos =>
    refine ⟨8 - x.length, by omega, ?_⟩
    have hlen : (x ++ List.replicate (8 - x.length) false).length = 8 := by
      rw [List.length_append, List.length_replicate]; omega
    have hnum : num2 (x ++ List.replicate (8 - x.length) false) = num2 x * 2 ^ (8 - x.length) := by
      rw [num2_append, num2_replicate_false, List.length_replicate, Nat.add_zero]
    have hlt := num2_lt (x ++ List.replicate (8 - x.length) false)
    rw [hlen, hnum] at hlt
    rw [List.flatMap_singleton]
    refine byteBits_eq_of_toNat hlen ?_
    rw [BitVec.toNat_setWidth, BitVec.toNat_shiftLeft, Nat.shiftLeft_eq, hacc, hnum]
    omega
  case isFalse hempty => exact ⟨0, by omega, by simp [List.length_eq_zero_iff.1 (by omega : x.length = 0)]⟩

/-- The packer emits the stream of its codes, completed with fewer than 8 zero bits. -/
theorem packCodes_holds {d : Datapath} {x : List Bool} (h : d.Holds x) (hx : x.length ≤ 7) (cs : List Code) :
    (packCodes d cs).1.cnt.val ≤ 7 ∧
      ∃ p ≤ 7, (packCodes d cs).2.flatMap byteBits = x ++ bits5 cs ++ List.replicate p false := by
  induction cs generalizing d x with
  | nil =>
    obtain ⟨p, hp, hbits⟩ := packFlush_holds h hx
    exact ⟨h.1.trans_le hx, p, hp, by rw [bits5_nil, List.append_nil]; exact hbits⟩
  | cons k cs ih =>
    obtain ⟨y, hy, hheld, hnow⟩ := packCode_holds h hx k
    obtain ⟨hcnt, p, hp, hlater⟩ := ih hheld hy
    refine ⟨hcnt, p, hp, ?_⟩
    rw [packCodes, List.flatMap_append, hlater, bits5_cons]
    simp only [← List.append_assoc, hnow]

/-- Settles O28: whole bytes leave room for one pad only, so what the packer emits is what `PACK5` gives. -/
theorem packerDatapathComputesPack : Obligations.PackerDatapathComputesPack := by
  intro d stg cs
  obtain ⟨hcnt, p, hp, hbits⟩ := packCodes_holds (d.clearGearbox_holds stg) (Nat.zero_le 7) cs
  have hlen := congrArg List.length hbits
  simp only [byteBits_flatMap_length, List.length_append, bits5_length, List.length_replicate, List.length_nil] at hlen
  have hpad : p = padBits cs.length := by rw [padBits_eq]; omega
  refine ⟨byteBits_flatMap_injective (hbits.trans ?_), hcnt⟩
  simp only [byteBits_pack5, hpad, List.nil_append]

/-! ## The unpacker -/

theorem bits5_append (cs cs' : List Code) : bits5 (cs ++ cs') = bits5 cs ++ bits5 cs' := List.flatMap_append

/-- The loop of the unpacker moves whole codes out, and ends with fewer than 5 bits held when it may run often enough. -/
theorem unpackDrain_holds {fuel : Nat} {d : Datapath} {x : List Bool} (h : d.Holds x) (hfuel : x.length ≤ 5 * fuel + 4)
    (hx : x.length ≤ 12) :
    ∃ y, y.length ≤ 4 ∧ (unpackDrain fuel d).1.Holds y ∧ bits5 (unpackDrain fuel d).2 ++ y = x := by
  induction fuel generalizing d x with
  | zero => exact ⟨x, hfuel, h, rfl⟩
  | succ fuel ih =>
    rw [unpackDrain, h.1]
    split
    case isTrue hfull =>
      have htop : (x.take 5).length = 5 := by rw [List.length_take]; omega
      have hrest : (x.drop 5).length = x.length - 5 := List.length_drop
      rw [← List.take_append_drop 5 x] at h
      have hkept := h.keepLow (by omega)
      have hbits := h.top_toNat
      rw [hrest] at hkept hbits
      rw [htop] at hbits
      obtain ⟨y, hy, hheld, hlater⟩ := ih hkept (by omega) (by omega)
      refine ⟨y, hy, hheld, ?_⟩
      rw [bits5_cons, List.append_assoc, hlater, codeBits_eq_of_toNat htop hbits, List.take_append_drop]
    case isFalse hshort => exact ⟨x, by omega, h, rfl⟩

/-- A byte through the unpacker: the bits that leave and the bits held are those held before and those of the byte. -/
theorem unpackByte_holds {d : Datapath} {x : List Bool} (h : d.Holds x) (hx : x.length ≤ 4) (v : Byte) :
    ∃ y, y.length ≤ 4 ∧ (unpackByte d v).1.Holds y ∧ bits5 (unpackByte d v).2 ++ y = x ++ byteBits v := by
  have hlen : (x ++ byteBits v).length ≤ 12 := by rw [List.length_append, byteBits_length]; omega
  exact unpackDrain_holds (h.shiftIn (byteBits_length v) (num2_byteBits v) (by omega)) (by omega) hlen

/-- The unpacker emits the stream of its bytes but for the fewer than 5 bits it still holds. -/
theorem unpackBytes_holds {d : Datapath} {x : List Bool} (h : d.Holds x) (hx : x.length ≤ 4) (b : List Byte) :
    ∃ y, y.length ≤ 4 ∧ (unpackBytes d b).1.Holds y ∧ bits5 (unpackBytes d b).2 ++ y = x ++ b.flatMap byteBits := by
  induction b generalizing d x with
  | nil => exact ⟨x, hx, h, by simp [unpackBytes]⟩
  | cons v b ih =>
    obtain ⟨y, hy, hheld, hnow⟩ := unpackByte_holds h hx v
    obtain ⟨z, hz, hlast, hlater⟩ := ih hheld hy
    refine ⟨z, hz, hlast, ?_⟩
    rw [unpackBytes, bits5_append, List.append_assoc, hlater, List.flatMap_cons, ← List.append_assoc, hnow, List.append_assoc]

/-- Settles O29: the bits still held at the end are too few for a code. -/
theorem unpackerDatapathComputesUnpack : Obligations.UnpackerDatapathComputesUnpack := by
  intro d stg b
  obtain ⟨y, hy, ⟨hcnt, -⟩, hbits⟩ := unpackBytes_holds (d.clearGearbox_holds stg) (Nat.zero_le 4) b
  refine ⟨?_, hcnt.trans_le hy⟩
  rw [unpack5, ← List.nil_append (b.flatMap byteBits), ← hbits, codesOfBits_bits5_append, codesOfBits_short (by omega),
    List.append_nil]

end Sys2Proof.Machine
end

section
/-! PROOFS. The codec: decoding what was encoded, O30, and the commands ENCODE and DECODE, O37 and O38
(spec/41_gearbox_codec.md R125, R126 and R128). -/

namespace Sys2Proof.Machine

/-! ## The round trip -/

theorem dec_enc_of_pad_le (unk : Byte) {t : List Byte} (h : padBits t.length ≤ 4) : dec unk (enc t) = foldStar unk t := by
  rw [dec, enc, unpack5_pack5_of_pad_le (by rwa [List.length_map]), List.map_map]
  rfl

theorem dec_enc_of_le_pad (unk : Byte) {t : List Byte} (h : 5 ≤ padBits t.length) :
    dec unk (enc t) = foldStar unk t ++ [0x61#8] := by
  rw [dec, enc, unpack5_pack5_of_le_pad (by rwa [List.length_map]), List.map_append, List.map_map]
  rfl

theorem foldStar_of_symbols (unk : Byte) {t : List Byte} (h : ∀ c ∈ t, caseFold c ∈ Config.symbolBytes) :
    foldStar unk t = t.map caseFold :=
  List.map_congr_left fun c hc => c2s_s2c unk fun hmarker => (s2c_eq_marker_iff c).1 hmarker (h c hc)

/-- Settles O30: the pad of the encoded text holds no whole code, or one code 0, which is read as an "a". -/
theorem decodeAfterEncode : Obligations.DecodeAfterEncode := by
  intro unk t
  have hpad := five_le_padBits_iff t.length
  refine ⟨fun h => dec_enc_of_pad_le unk ?_, fun h => dec_enc_of_le_pad unk ?_, foldStar_of_symbols unk⟩
  all_goals
    simp only [List.mem_cons, List.not_mem_nil, or_false] at h
    omega

/-! ## The commands -/

/-- What a command that raises no error leaves. -/
theorem exec_delivers {i : Instr} {s : State} (hc : commandError i s = none) (hl : i = .genkey ∨ s.ilen.toNat ≤ Config.capIn) :
    ∃ t, exec i s = .next t ∧ t.Delivers (commandOutput i s) ∧ t.Succeeded ∧ t.busy = false ∧ t.done = true ∧ t.err = false ∧
      s.CommandFrame t ∧ t.entropyDraws = s.entropyDraws + entropyQueries i :=
  ⟨_, exec_success hc hl, State.succeed_delivers ((commandOutput_length_le hl).trans_lt Config.capOut_lt),
    State.succeed_succeeded _ _, State.succeed_busy _ _, State.succeed_done _ _, State.succeed_err _ _,
    State.succeed_frame _ _ _, rfl⟩

/-- Settles O37: ENCODE is not keyed, and packing never lengthens. -/
theorem encodeDeliversThePackedText : Obligations.EncodeDeliversThePackedText := by
  refine ⟨by decide, by decide, fun s hl => ?_⟩
  obtain ⟨t, hexec, hout, hok, hbusy, hdone, herr, hframe, hdraws⟩ := exec_delivers (i := .encode) rfl (.inr hl)
  have holen : t.olen.toNat = (5 * s.ilen.toNat + 7) / 8 :=
    hout.1.trans ((enc_length _).trans (by rw [s.inputBytes_length, packedLen_eq]))
  exact ⟨t, hexec, hout, holen, by omega, hok, hbusy, hdone, herr, hframe, hdraws⟩

/-- Settles O38: DECODE is not keyed, and CAP_OUT has room for the text of a full input. -/
theorem decodeDeliversTheText : Obligations.DecodeDeliversTheText := by
  refine ⟨by decide, rfl, fun s hl => ?_⟩
  obtain ⟨t, hexec, hout, hok, hbusy, hdone, herr, hframe, hdraws⟩ := exec_delivers (i := .decode) rfl (.inr hl)
  have hlen : (dec Config.unkChar s.inputBytes).length = 8 * s.ilen.toNat / 5 := by
    rw [dec_length, s.inputBytes_length]; rfl
  exact ⟨t, hexec, hout, hout.1.trans hlen, hout.1.trans_le (commandOutput_length_le (.inr hl)), hok, hbusy, hdone, herr, hframe,
    hdraws⟩

end Sys2Proof.Machine
end

section
/-! PROOFS. The numerals of a buffer and the strings of a round, O31 and O32 (spec/42_fpe_feistel.md R143 to R148). -/

namespace Sys2Proof.Machine

/-! ## Numerals and bytes -/

theorem byteNumerals_getElem? (v : Byte) {r : Nat} (hr : r < 8) : (byteNumerals v)[r]? = some (v.getLsbD r) := by
  interval_cases r <;> rfl

theorem byteNumerals_byteOfBits (x0 x1 x2 x3 x4 x5 x6 x7 : Bool) :
    byteNumerals (byteOfBits [x7, x6, x5, x4, x3, x2, x1, x0]) = [x0, x1, x2, x3, x4, x5, x6, x7] := by
  rw [byteNumerals_eq_reverse, byteBits_byteOfBits]
  rfl

theorem bitsLe_cons (v : Byte) (buf : List Byte) : bitsLe (v :: buf) = byteNumerals v ++ bitsLe buf := List.flatMap_cons

theorem bytesLe_bitsLe (buf : List Byte) : bytesLe (bitsLe buf) = buf := by
  induction buf with
  | nil => rfl
  | cons v buf ih => rw [bitsLe_cons, bytesLe_byteNumerals_append, ih]

/-- Whole bytes give their numerals back. -/
theorem bitsLe_bytesLe {x : List Bool} (h : x.length % 8 = 0) : bitsLe (bytesLe x) = x := by
  induction x using bytesLe.induct with
  | case1 x0 x1 x2 x3 x4 x5 x6 x7 rest ih =>
    have hrest : rest.length % 8 = 0 := by simp only [List.length_cons] at h; omega
    rw [bytesLe, bitsLe_cons, byteNumerals_byteOfBits, ih hrest]
    rfl
  | case2 x hshort =>
    have hlt : x.length < 8 := by
      by_contra hge
      obtain ⟨x0, x1, x2, x3, x4, x5, x6, x7, rest, hx⟩ := exists_eight_of_length (not_lt.1 hge)
      exact hshort _ _ _ _ _ _ _ _ _ hx
    obtain rfl : x = [] := List.length_eq_zero_iff.1 (by omega)
    rfl

theorem bitsLe_getElem? (buf : List Byte) (k : Nat) {r : Nat} (hr : r < 8) :
    (bitsLe buf)[8 * k + r]? = buf[k]?.map (fun v => v.getLsbD r) := by
  simp [bitsLe, flatMap_getElem?_group byteNumerals_length buf k hr, byteNumerals_getElem? _ hr, Option.map_eq_bind]

/-- Settles O31: numeral `j` is numeral `j % 8` of byte `j / 8`, and a string of whole bytes is the numerals of its bytes. -/
theorem numeralsAreBytesLeastSignificantBitFirst : Obligations.NumeralsAreBytesLeastSignificantBitFirst := by
  refine ⟨fun buf => ⟨bitsLe_length buf, bytesLe_bitsLe buf, fun j => ?_⟩,
    fun x hx => ⟨bitsLe_bytesLe hx, bytesLe_length x, fun k r hr => ?_⟩, by decide⟩
  · rw [← bitsLe_getElem? buf _ (Nat.mod_lt j (by decide)), Nat.div_add_mod]
  · rw [← bitsLe_getElem? _ k hr, bitsLe_bytesLe hx]

/-! ## The strings of a round -/

theorem fpeU_bytes (l : Nat) : fpeU (8 * l) = 4 * l := by
  unfold fpeU
  omega

theorem fpeV_bytes (l : Nat) : fpeV (8 * l) = 4 * l := by
  rw [fpeV, fpeU_bytes]
  omega

theorem fpeB_bytes (l : Nat) : fpeB (8 * l) = (l + 1) / 2 := by
  rw [fpeB, ceilDiv, fpeV_bytes]
  omega

theorem fpeD_bytes (l : Nat) : fpeD (8 * l) = 4 * (((l + 1) / 2 + 3) / 4) + 4 := by
  rw [fpeD, ceilDiv, fpeB_bytes]

theorem fpeZ_lt (n : Nat) : fpeZ n < 16 := Nat.mod_lt _ (by decide)

/-- The zero bytes before the round index and the half fill `Q` up to whole blocks (R148). -/
theorem qBytes_length_mod (n i : Nat) (h : List Bool) : (qBytes n i h).length % 16 = 0 := by
  rw [qBytes_length, fpeZ]
  omega

theorem be_four (x : Nat) :
    be 4 x = [BitVec.ofNat 8 (x / 2 ^ 24), BitVec.ofNat 8 (x / 2 ^ 16 % 256), BitVec.ofNat 8 (x / 2 ^ 8 % 256),
      BitVec.ofNat 8 (x % 256)] := by
  have hmod (y : Nat) : BitVec.ofNat 8 (y % 256) = BitVec.ofNat 8 y := BitVec.eq_of_toNat_eq (by simp)
  simp [be, hmod, Nat.div_div_eq_div_mul]

theorem numB_replicate_zero (z : Nat) : numB (List.replicate z 0x00#8) = 0 := by
  induction z with
  | zero => rfl
  | succ z ih => simp [List.replicate_succ', ih]

/-- `Q` as a number, for a round index of one byte and a half that fits `b` bytes. -/
theorem numB_qBytes {n i : Nat} {h : List Bool} (hi : i < 256) (hh : h.length ≤ 8 * fpeB n) :
    numB (qBytes n i h) = i * 256 ^ fpeB n + num2 h := by
  have hfit : num2 h < 256 ^ fpeB n := by
    calc num2 h < 2 ^ h.length := num2_lt h
      _ ≤ 2 ^ (8 * fpeB n) := Nat.pow_le_pow_right (by decide) hh
      _ = 256 ^ fpeB n := Nat.pow_mul 2 8 _
  simp [qBytes, numB_append, numB_replicate_zero, numB_be, Nat.mod_eq_of_lt hfit, Nat.mod_eq_of_lt hi]

/-- Settles O32: on `8 * l` numerals the halves are equal, and half of `4 * l` numerals fits the bytes that hold it. -/
theorem roundStringsHaveTheirSizes : Obligations.RoundStringsHaveTheirSizes := by
  intro l i h _ _ hi hlen
  have hfits : h.length ≤ 8 * fpeB (8 * l) := by rw [fpeB_bytes]; omega
  refine ⟨fpeU_bytes l, fpeV_bytes l, fpeB_bytes l, fpeD_bytes l, fpeZ_lt _, ?_, qBytes_length _ _ _,
    qBytes_length_mod _ _ _, numB_qBytes (by omega) hfits⟩
  rw [pBytes, be_four, fpeU_bytes]
  rfl

end Sys2Proof.Machine
end

section
/-! PROOFS. The Feistel engine: the transforms keep the length, O33, undo each other, O34, and leave every buffer under the zero
cipher, O35; the queries of a run, O36 (spec/42_fpe_feistel.md R151 to R161). -/

namespace Sys2Proof.Machine

/-- Settles O33: every round keeps the halves even. -/
theorem fpeKeepsTheLength : Obligations.FpeKeepsTheLength :=
  fun ciph k buf => ⟨fpeEnc_length ciph k buf, fpeDec_length ciph k buf⟩

/-! ## A run in either direction -/

/-- A run over the numerals of a buffer: its halves through the rounds in the given order (R152, R154). -/
def fpeRun (round : List Bool × List Bool → Nat → List Bool × List Bool) (order : List Nat) (buf : List Byte) : List Byte :=
  let ab := order.foldl round (splitHalves (bitsLe buf))
  bytesLe (ab.1 ++ ab.2)

theorem splitHalves_append (x : List Bool) : (splitHalves x).1 ++ (splitHalves x).2 = x := List.take_append_drop _ _

/-- A run that starts where another ended has the halves of that end. -/
theorem splitHalves_bitsLe_bytesLe {l : Nat} {ab : List Bool × List Bool} (h : EvenHalves l ab) :
    splitHalves (bitsLe (bytesLe (ab.1 ++ ab.2))) = ab := by
  obtain ⟨ha, hb⟩ := h
  have hlen : (ab.1 ++ ab.2).length = 8 * l := by rw [List.length_append]; omega
  rw [bitsLe_bytesLe (by omega), splitHalves, hlen, fpeU_bytes, ← ha, List.take_left, List.drop_left]

section
variable {round back : List Bool × List Bool → Nat → List Bool × List Bool} {l : Nat}

theorem fpeRun_length (hround : ∀ ab i, EvenHalves l ab → EvenHalves l (round ab i)) (order : List Nat) {buf : List Byte}
    (hl : buf.length = l) : (fpeRun round order buf).length = l :=
  bytesLe_evenHalves_length (rounds_keep_even hround order (hl ▸ splitHalves_bitsLe_even buf))

/-- Rounds that undo each other undo a whole sequence in the reverse order. -/
theorem rounds_undo (hround : ∀ ab i, EvenHalves l ab → EvenHalves l (round ab i))
    (hback : ∀ ab i, EvenHalves l ab → back (round ab i) i = ab) (order : List Nat) {ab : List Bool × List Bool}
    (h : EvenHalves l ab) : order.reverse.foldl back (order.foldl round ab) = ab := by
  induction order generalizing ab with
  | nil => rfl
  | cons i order ih =>
    rw [List.reverse_cons, List.foldl_append, List.foldl_cons (f := round), ih (hround ab i h)]
    exact hback ab i h

theorem fpeRun_undo (hround : ∀ ab i, EvenHalves l ab → EvenHalves l (round ab i))
    (hback : ∀ ab i, EvenHalves l ab → back (round ab i) i = ab) (order : List Nat) {buf : List Byte}
    (hl : buf.length = l) : fpeRun back order.reverse (fpeRun round order buf) = buf := by
  have hstart : EvenHalves l (splitHalves (bitsLe buf)) := hl ▸ splitHalves_bitsLe_even buf
  have hend := rounds_keep_even hround order hstart
  simp only [fpeRun]
  rw [splitHalves_bitsLe_bytesLe hend, rounds_undo hround hback order hstart, splitHalves_append, bytesLe_bitsLe]

end

section
variable (ciph : Block → Block → Block) (k : Block)

/-- On no numerals a run gives no byte, so the empty buffer needs no case of its own. -/
theorem fpeEnc_eq_run {buf : List Byte} {l : Nat} (hl : buf.length = l) :
    fpeEnc ciph k buf = fpeRun (fun ab i => encRound ciph k (8 * l) i ab) roundIndices buf := by
  subst hl
  cases buf with
  | nil => exact (List.length_eq_zero_iff.1 (fpeRun_length (fun _ _ => encRound_keeps_even rfl) _ rfl)).symm
  | cons v buf => rw [← bitsLe_length]; rfl

theorem fpeDec_eq_run {buf : List Byte} {l : Nat} (hl : buf.length = l) :
    fpeDec ciph k buf = fpeRun (fun ab i => decRound ciph k (8 * l) i ab) roundIndices.reverse buf := by
  subst hl
  cases buf with
  | nil => exact (List.length_eq_zero_iff.1 (fpeRun_length (fun _ _ => decRound_keeps_even rfl) _ rfl)).symm
  | cons v buf => rw [← bitsLe_length]; rfl

/-! ## The two transforms -/

theorem fpeDec_fpeEnc (buf : List Byte) : fpeDec ciph k (fpeEnc ciph k buf) = buf := by
  rw [fpeDec_eq_run ciph k (fpeEnc_length ciph k buf), fpeEnc_eq_run ciph k rfl]
  exact fpeRun_undo (fun _ _ => encRound_keeps_even rfl)
    (fun _ i h => decRound_encRound (h.1.trans (roundLen_bytes _ i).symm)) roundIndices rfl

theorem fpeEnc_fpeDec (buf : List Byte) : fpeEnc ciph k (fpeDec ciph k buf) = buf := by
  rw [fpeEnc_eq_run ciph k (fpeDec_length ciph k buf), fpeDec_eq_run ciph k rfl]
  exact fpeRun_undo (fun _ _ => decRound_keeps_even rfl)
    (fun _ i h => encRound_decRound (h.2.trans (roundLen_bytes _ i).symm)) roundIndices.reverse rfl

end

/-- Settles O34: the rounds of each direction undo those of the other in the reverse order, whatever the round values. -/
theorem fpeTransformsAreInverse : Obligations.FpeTransformsAreInverse :=
  fun ciph k buf => ⟨fpeDec_fpeEnc ciph k buf, fpeEnc_fpeDec ciph k buf⟩

/-! ## The zero cipher -/

/-- The cipher that answers every query with sixteen zero bytes (R159). -/
abbrev zeroCipher : Block → Block → Block := fun _ _ => 0#128

theorem prf_zeroCipher (k : Block) (s : List Byte) : prf zeroCipher k s = 0#128 :=
  List.foldlRecOn (motive := fun y => y = 0#128) (blocksOf s) _ rfl fun _ _ _ _ => rfl

theorem blockBytes_zero : blockBytes 0#128 = List.replicate 16 0x00#8 := by decide

theorem eq_zero_of_mem_expand_zeroCipher {k : Block} {n : Nat} {v : Byte} (h : v ∈ expand zeroCipher k n 0#128) : v = 0x00#8 := by
  simp only [expand, blockBytes_zero, List.mem_append, List.mem_flatMap, List.mem_replicate] at h
  obtain ⟨-, hv⟩ | ⟨-, -, -, hv⟩ := h <;> exact hv

theorem roundValue_zeroCipher (k : Block) (n i : Nat) (h : List Bool) : roundValue zeroCipher k n i h = 0 := by
  rw [roundValue, roundPrf, prf_zeroCipher,
    List.eq_replicate_of_mem fun v hv => eq_zero_of_mem_expand_zeroCipher (List.mem_of_mem_take hv), numB_replicate_zero]

/-- With the round value 0 a round only swaps the halves. -/
theorem encRound_zeroCipher {k : Block} {n i : Nat} {ab : List Bool × List Bool} (h : ab.1.length = roundLen n i) :
    encRound zeroCipher k n i ab = ab.swap := by
  have hlt := num2_lt ab.1
  rw [h] at hlt
  rw [encRound, roundValue_zeroCipher, Nat.add_zero, Nat.mod_eq_of_lt hlt, ← h, str2_num2]
  rfl

theorem encRounds_zeroCipher {k : Block} {l : Nat} (order : List Nat) {ab : List Bool × List Bool} (h : EvenHalves l ab) :
    order.foldl (fun ab i => encRound zeroCipher k (8 * l) i ab) ab = Prod.swap^[order.length] ab := by
  induction order generalizing ab with
  | nil => rfl
  | cons i order ih =>
    rw [List.foldl_cons, encRound_zeroCipher (h.1.trans (roundLen_bytes l i).symm), ih ⟨h.2, h.1⟩]
    rfl

theorem fpeEnc_zeroCipher (k : Block) (buf : List Byte) : fpeEnc zeroCipher k buf = buf := by
  have htenSwaps (ab : List Bool × List Bool) : Prod.swap^[roundIndices.length] ab = ab := rfl
  simp only [fpeEnc_eq_run zeroCipher k rfl, fpeRun]
  rw [encRounds_zeroCipher _ (splitHalves_bitsLe_even buf), htenSwaps, splitHalves_append, bytesLe_bitsLe]

/-- Settles O35: every round swaps the halves, and there are ten of them; decryption undoes what changes nothing. -/
theorem zeroCipherLeavesTheBuffer : Obligations.ZeroCipherLeavesTheBuffer := by
  intro k buf
  have henc := fpeEnc_zeroCipher k buf
  have hdec := fpeDec_fpeEnc zeroCipher k buf
  rw [henc] at hdec
  exact ⟨henc, hdec⟩

/-! ## The queries of a run -/

theorem roundQueries_head? (ciph : Block → Block → Block) (k : Block) (n i : Nat) (h : List Bool) :
    (roundQueries ciph k n i h).head? = some (blockOf (pBytes n)) := by
  rw [roundQueries, blocksOf_append (pBytes_length n)]
  simp [chainQueries]

/-- Settles O36: each of the ten rounds sends the same number of blocks, the first of them the block P. -/
theorem queryCountOfARun : Obligations.QueryCountOfARun :=
  ⟨fun ciph k buf => ⟨fpeEncQueries_length ciph k buf, fpeDecQueries_length ciph k buf⟩, roundQueries_head?, by decide⟩

end Sys2Proof.Machine
end

section
/-! PROOFS. The commands ENCRYPT, DECRYPT and GENKEY, O39, O40 and O43 (spec/42_fpe_feistel.md R165 to R168). -/

namespace Sys2Proof.Machine

theorem State.Delivers.olen_eq {t : State} {out : List Byte} {n : Len} (h : t.Delivers out) (hout : out.length = n.toNat) :
    t.olen = n := BitVec.eq_of_toNat_eq (h.1.trans hout)

section
variable {i : Instr} {s : State}

/-- What a command that raises an error leaves: the error completion, no draw, and no query of the cipher. -/
theorem exec_fails {c : Cause} (h : commandError i s = some c) :
    ∃ t, exec i s = .next t ∧ s.CommandFrame t ∧ t.entropyDraws = s.entropyDraws ∧ t.Failed (causeCode c) ∧
      cmdQueries i s = [] :=
  ⟨_, exec_error h, s.raiseError_frame c, rfl, s.raiseError_failed c, cmdQueries_of_error (by simp [h])⟩

theorem entropyQueries_of_keyed (hk : keyedCommand i = true) : entropyQueries i = 0 := by
  cases i with
  | genkey => cases hk
  | encode | decode | encrypt | decrypt | runenc | rundec => rfl

theorem commandError_of_keyed (hk : keyedCommand i = true) : commandError i s = keyCheck s := if_pos hk

theorem exec_keyed_wrongLength (hk : keyedCommand i = true) (hlen : s.klen ≠ 16#8) :
    ∃ t, exec i s = .next t ∧ s.CommandFrame t ∧ t.entropyDraws = s.entropyDraws ∧ t.Failed 1#8 ∧ cmdQueries i s = [] :=
  exec_fails ((commandError_of_keyed hk).trans (keyCheck_length hlen))

/-- A keyed command with a key of sixteen bytes delivers its output when the cipher takes the key, and fails when it does not. -/
theorem exec_keyed (hk : keyedCommand i = true) (hlen : s.klen = 16#8) (hl : s.ilen.toNat ≤ Config.capIn) :
    ∃ t, exec i s = .next t ∧ s.CommandFrame t ∧ t.entropyDraws = s.entropyDraws ∧
      if Config.ciphKeyOk s.keyBlock then t.Delivers (commandOutput i s) ∧ t.Succeeded
      else t.Failed 2#8 ∧ cmdQueries i s = [] := by
  have herr := (commandError_of_keyed hk).trans (keyCheck_of_length hlen)
  split
  case isTrue hok =>
    rw [if_pos hok] at herr
    obtain ⟨t, hexec, hout, hsucc, -, -, -, hframe, hdraws⟩ := exec_delivers herr (.inr hl)
    rw [entropyQueries_of_keyed hk] at hdraws
    exact ⟨t, hexec, hframe, hdraws, hout, hsucc⟩
  case isFalse hrejected =>
    rw [if_neg hrejected] at herr
    exact exec_fails herr

/-- A keyed command whose output is as long as its input leaves OLEN = ILEN when it delivers. -/
theorem exec_keyed_sameLength (hk : keyedCommand i = true) (hsame : (commandOutput i s).length = s.inputBytes.length)
    (hlen : s.klen = 16#8) (hl : s.ilen.toNat ≤ Config.capIn) :
    ∃ t, exec i s = .next t ∧ s.CommandFrame t ∧ t.entropyDraws = s.entropyDraws ∧
      if Config.ciphKeyOk s.keyBlock then t.Delivers (commandOutput i s) ∧ t.olen = s.ilen ∧ t.Succeeded
      else t.Failed 2#8 ∧ cmdQueries i s = [] := by
  obtain ⟨t, hexec, hframe, hdraws, hend⟩ := exec_keyed hk hlen hl
  refine ⟨t, hexec, hframe, hdraws, ?_⟩
  split_ifs at hend ⊢
  · exact ⟨hend.1, hend.1.olen_eq (hsame.trans s.inputBytes_length), hend.2⟩
  · exact hend

end

/-- Settles O39: ENCRYPT is keyed, and `FPE_ENC` keeps the length. -/
theorem encryptDeliversTheTransform : Obligations.EncryptDeliversTheTransform :=
  ⟨by decide, fpeEnc_zeroCipher _ _, fun _ => exec_keyed_sameLength (i := .encrypt) rfl (fpeEnc_length _ _ _),
    fun _ => exec_keyed_wrongLength rfl⟩

/-- Settles O40: DECRYPT is keyed, and `FPE_DEC` keeps the length. -/
theorem decryptDeliversTheInverseTransform : Obligations.DecryptDeliversTheInverseTransform :=
  ⟨by decide, fun _ => exec_keyed_sameLength (i := .decrypt) rfl (fpeDec_length _ _ _), fun _ => exec_keyed_wrongLength rfl⟩

/-- Settles O43: GENKEY is not keyed and reads no input, so it delivers its draw in every state. -/
theorem genkeyDeliversTheDraw : Obligations.GenkeyDeliversTheDraw := by
  refine ⟨by decide, fun s => ?_⟩
  obtain ⟨t, hexec, hout, hsucc, -, -, -, hframe, hdraws⟩ := exec_delivers (i := .genkey) (s := s) rfl (.inl rfl)
  exact ⟨t, hexec, hout, hout.olen_eq s.draw16_length, hsucc, hframe, hdraws⟩

end Sys2Proof.Machine
end

section
/-! PROOFS. From Accept to Complete: what a step of a busy core is, O4, what Accept takes and what waits for Complete, O6, and that
every accepted command ends, O16 (spec/43_pipeline.md R196 to R198, spec/20_memory.md R59, spec/70_reset_and_hazards.md R243). -/

namespace Sys2Proof.Machine

/-- Settles O4: the step is Complete, and the word in OPREG is legal. -/
theorem stepRunsTheAcceptedCommand : Obligations.StepRunsTheAcceptedCommand :=
  fun _ _ hb hturn hdecode => (step_complete hturn hb).trans (complete_ok hdecode)

/-- Settles O6: an idle core performs the write of CMD, which is Accept; a busy core holds each of the three transactions, since
none of them is RD_STATUS or RESET. -/
theorem acceptTakesTheCommandWord : Obligations.AcceptTakesTheCommandWord := by
  refine ⟨fun s w e rest hb hi => ?_, fun s r rest hb hl hi hr => ?_⟩
  · exact ⟨(s.takeRequest rest).acceptCmd w, rfl, step_idle hb hi, State.acceptCmd_busy _ w, State.acceptCmd_done _ w,
      State.acceptCmd_err _ w⟩
  · have hunheld : r.txn.unheld = false := by
      rcases hr with ⟨w, hw⟩ | hw | ⟨j, hw⟩
      all_goals rw [hw]; rfl
    obtain ⟨t, hstep, -, hidle, -, hframe, -⟩ := step_of_held hl hb hi (by rw [hunheld, Bool.and_false])
    have hinbox : t.inbox = r :: rest := hframe.inbox_eq.trans hi
    obtain ⟨-, -, -, -, hopreg, -, houtbox⟩ := hframe
    exact ⟨t, hstep, hinbox, houtbox, hidle, hopreg, hostTurn_idle hidle hinbox⟩

/-! ## A command in progress ends -/

/-- What a legal busy core does next: Complete, or one of the two transactions that can fall before it. -/
theorem step_of_busy {s : State} (hs : s.Inv) (hb : s.busy = true) :
    (∃ t, step s = .next t ∧ t.busy = false ∧ t.done = true) ∨
    (∃ rest, s.inbox = ⟨.rdStatus, true⟩ :: rest ∧ step s = .next ((s.takeRequest rest).reply (.status s.status))) ∨
    (∃ rest, s.inbox = ⟨.reset, true⟩ :: rest ∧ step s = .next (s.takeRequest rest).resetEvent) := by
  cases hturn : hostTurn s with
  | none =>
    obtain ⟨t, ht⟩ := complete_next_of_le hs.ilen
    exact .inl ⟨t, (step_complete hturn hb).trans ht, complete_idle_done ht⟩
  | some turn =>
    obtain ⟨x, rest⟩ := turn
    obtain ⟨⟨x, early⟩, hi, rfl, hidle | ⟨rfl, hunheld⟩⟩ := hostTurn_some hturn
    · exact absurd hb (by simp [hidle])
    · have hstep := step_host hturn
      cases x with
      | rdStatus => exact .inr (.inl ⟨rest, hi, hstep⟩)
      | reset => exact .inr (.inr ⟨rest, hi, hstep⟩)
      | _ => cases hunheld

/-- Each RD_STATUS before Complete leaves one request fewer to wait for, and Complete or an early RESET ends the command. -/
theorem exists_run_to_idle (s : State) (hs : s.Inv) (hb : s.busy = true) :
    ∃ k t, k ≤ s.inbox.length + 1 ∧ Host.Core.run Sys2Proof.core k s = .next t ∧ t.busy = false ∧
      (t.done = true ∨ (t.status = 0x00#8 ∧ ∃ r, r ∈ s.inbox ∧ r.txn = .reset ∧ r.early = true)) := by
  rcases step_of_busy hs hb with ⟨t, hstep, hidle, hdone⟩ | ⟨rest, hi, hstep⟩ | ⟨rest, hi, hstep⟩
  · exact ⟨1, t, by omega, core_run_next 0 hstep, hidle, .inl hdone⟩
  · obtain ⟨k, t, hk, hrun, hidle, hend⟩ :=
      exists_run_to_idle ((s.takeRequest rest).reply (.status s.status)) ((hs.takeRequest rest).reply _) hb
    refine ⟨k + 1, t, ?_, (core_run_next k hstep).trans hrun, hidle, hend.imp_right ?_⟩
    · rw [hi]
      exact Nat.succ_le_succ hk
    · rintro ⟨hstatus, r, hr, hreset⟩
      exact ⟨hstatus, r, hi ▸ List.mem_cons_of_mem _ hr, hreset⟩
  · exact ⟨1, _, by omega, core_run_next 0 hstep, State.resetEvent_busy _,
      .inr ⟨rfl, _, hi ▸ List.mem_cons_self, rfl, rfl⟩⟩
termination_by s.inbox.length
decreasing_by simp [hi]

/-- Settles O16: only finitely many requests wait. -/
theorem acceptedCommandCompletes : Obligations.AcceptedCommandCompletes := exists_run_to_idle

end Sys2Proof.Machine
end

section
/-! PROOFS. The sequencer: each stage on its registers computes the function it realises, and the stages of a command what the
command delivers, O52 (spec/43_pipeline.md R195, spec/10_state.md R33 to R37). -/

namespace Sys2Proof.Machine

/-! ## The Feistel registers -/

/-- Before each round of an FPE stage P holds its block, and A and B the halves (R147, R152, R154). -/
def Datapath.HoldsHalves (n : Nat) (d : Datapath) (ab : List Bool × List Bool) : Prop :=
  d.blkP = blockOf (pBytes n) ∧ d.halfA = ab.1 ∧ d.halfB = ab.2

section
variable {ciph : Block → Block → Block} {k : Block} {n : Nat} {d : Datapath}

/-- The chain over the block P and then over Q is the PRF of the round (R149, R150). -/
theorem roundRegs_numY (hP : d.blkP = blockOf (pBytes n)) (i : Nat) (h : List Bool) :
    (roundRegs ciph k n i h d).numY = roundValue ciph k n i h := by
  simp only [roundRegs, roundValue, roundPrf, prf, blocksOf_append (pBytes_length n), List.foldl_cons, hP]

theorem encRoundRegs_holdsHalves {ab : List Bool × List Bool} (h : d.HoldsHalves n ab) (i : Nat) :
    (encRoundRegs ciph k n i d).HoldsHalves n (encRound ciph k n i ab) := by
  obtain ⟨hP, hA, hB⟩ := h
  have hy := roundRegs_numY (ciph := ciph) (k := k) hP i d.halfB
  refine ⟨hP, hB, ?_⟩
  rw [encRound, ← hA, ← hB, ← hy]
  rfl

theorem decRoundRegs_holdsHalves {ab : List Bool × List Bool} (h : d.HoldsHalves n ab) (i : Nat) :
    (decRoundRegs ciph k n i d).HoldsHalves n (decRound ciph k n i ab) := by
  obtain ⟨hP, hA, hB⟩ := h
  have hy := roundRegs_numY (ciph := ciph) (k := k) hP i d.halfA
  refine ⟨hP, ?_, hA⟩
  rw [decRound, ← hA, ← hB, ← hy]
  rfl

end

/-- An FPE stage whose rounds take the halves in A and B as those of a run take its pair gives the bytes of that run. -/
theorem runFpeStage_output {roundR : Nat → Nat → Datapath → Datapath}
    {round : Nat → List Bool × List Bool → Nat → List Bool × List Bool}
    (hround : ∀ n i d ab, Datapath.HoldsHalves n d ab → (roundR n i d).HoldsHalves n (round n ab i))
    (stg : Stage) (order : List Nat) (d : Datapath) (buf : List Byte) :
    (runFpeStage stg order roundR d buf).2 = if buf.isEmpty then [] else fpeRun (round (bitsLe buf).length) order buf := by
  rw [runFpeStage]
  split
  case isTrue => rfl
  case isFalse =>
    obtain ⟨-, hA, hB⟩ : Datapath.HoldsHalves (bitsLe buf).length
        (order.foldl (fun d i => roundR (bitsLe buf).length i d) (loadHalves d stg (bitsLe buf)))
        (order.foldl (round (bitsLe buf).length) (splitHalves (bitsLe buf))) :=
      List.foldl_rel ⟨rfl, rfl, rfl⟩ fun i _ d ab h => hround _ i d ab h
    simp only [fpeRun, hA, hB]

/-! ## The stages -/

section
variable (inp : StageInputs) (d : Datapath) (buf : List Byte)

theorem runStage_mapPack : (runStage inp .mapPack d buf).2 = enc buf := (packerDatapathComputesPack d .mapPack _).1

theorem runStage_unpackMap : (runStage inp .unpackMap d buf).2 = dec inp.unk buf := by
  rw [runStage, (unpackerDatapathComputesUnpack d .unpackMap buf).1, dec]

theorem runStage_fpeEnc : (runStage inp .fpeEnc d buf).2 = fpeEnc inp.ciph inp.key buf :=
  runFpeStage_output (round := fun n ab i => encRound inp.ciph inp.key n i ab)
    (fun _ i _ _ h => encRoundRegs_holdsHalves h i) .fpeEnc roundIndices d buf

theorem runStage_fpeDec : (runStage inp .fpeDec d buf).2 = fpeDec inp.ciph inp.key buf :=
  runFpeStage_output (round := fun n ab i => decRound inp.ciph inp.key n i ab)
    (fun _ i _ _ h => decRoundRegs_holdsHalves h i) .fpeDec roundIndices.reverse d buf

/-- WBUF hands the whole output of a stage to the next when WLEN can hold its length. -/
theorem runStages_two {stg stg' : Stage} (h : (runStage inp stg d buf).2.length < 2 ^ 32) :
    ∃ d', runStages inp [stg, stg'] d buf = runStage inp stg' d' (runStage inp stg d buf).2 := by
  refine ⟨{ (runStage inp stg d buf).1 with
    wbuf := (runStage inp stg d buf).2, wlen := BitVec.ofNat 32 (runStage inp stg d buf).2.length }, ?_⟩
  simp only [runStages, BitVec.toNat_ofNat, Nat.mod_eq_of_lt h, List.take_length]

end

/-! ## The commands -/

theorem sequencerRun_output (i : Instr) {s : State} (h : s.ilen.toNat ≤ Config.capIn) :
    (sequencerRun i s).2 = commandOutput i s := by
  have hin : s.inputBytes.length < 2 ^ 32 :=
    (s.inputBytes_length.trans_le h).trans_lt (Config.capIn_le_capOut.trans_lt Config.capOut_lt)
  cases i with
  | encode => exact runStage_mapPack s.stageInputs _ _
  | decode => exact runStage_unpackMap s.stageInputs _ _
  | encrypt => exact runStage_fpeEnc s.stageInputs _ _
  | decrypt => exact runStage_fpeDec s.stageInputs _ _
  | genkey => rfl
  | runenc k =>
    cases k with
    | false => exact runStage_mapPack s.stageInputs _ _
    | true =>
      have hpacked := runStage_mapPack s.stageInputs s.dp s.inputBytes
      obtain ⟨d, hd⟩ := runStages_two (stg' := .fpeEnc) _ _ _ (by rw [hpacked]; exact (enc_length_le _).trans_lt hin)
      rw [sequencerRun, stagesOf, if_pos rfl, hd, runStage_fpeEnc, hpacked]
      rfl
  | rundec k =>
    cases k with
    | false => exact runStage_unpackMap s.stageInputs _ _
    | true =>
      have hplain := runStage_fpeDec s.stageInputs s.dp s.inputBytes
      obtain ⟨d, hd⟩ := runStages_two (stg' := .unpackMap) _ _ _ (by rw [hplain, fpeDec_length]; exact hin)
      rw [sequencerRun, stagesOf, if_pos rfl, hd, runStage_unpackMap, hplain]
      rfl

/-- Settles O52: by the output of the stages, and the two completions of a command. -/
theorem sequencerRealisesTheCommands : Obligations.SequencerRealisesTheCommands := by
  intro i s hl
  have hout := sequencerRun_output i hl
  refine ⟨hout, ?_⟩
  cases herr : commandError i s with
  | some c => exact exec_error herr
  | none =>
    rw [hout]
    exact exec_success herr (.inr hl)

end Sys2Proof.Machine
end

section
/-! PROOFS. RUNENC and RUNDEC and the frame of all commands, O41, O42 and O47; the pipelines as their stages with a move between,
O49, and undoing each other up to the codec, O50 (spec/43_pipeline.md R193, R194, R198 to R200). -/

namespace Sys2Proof.Machine

/-! ## The two pipelines -/

theorem runencOutput_length (k : Bool) (s : State) : (commandOutput (.runenc k) s).length = (5 * s.ilen.toNat + 7) / 8 := by
  have henc : (enc s.inputBytes).length = (5 * s.ilen.toNat + 7) / 8 := by
    rw [enc_length, s.inputBytes_length, packedLen_eq]
  cases k with
  | false => exact henc
  | true => exact (fpeEnc_length _ _ _).trans henc

theorem rundecOutput_eq (k : Bool) (s : State) :
    commandOutput (.rundec k) s =
      dec Config.unkChar (if k then fpeDec Config.ciph s.keyBlock s.inputBytes else s.inputBytes) := by
  cases k <;> rfl

theorem rundecOutput_length (k : Bool) (s : State) : (commandOutput (.rundec k) s).length = 8 * s.ilen.toNat / 5 := by
  rw [rundecOutput_eq, dec_length, unpackedLen, apply_ite List.length, fpeDec_length, ite_self, s.inputBytes_length]

/-- With sixteen bytes in the key registers, if K has them read, a pipeline fails only on a key that the cipher rejects. -/
theorem commandError_pipeline {i : Instr} {k : Bool} {s : State} (hi : i = .runenc k ∨ i = .rundec k)
    (hlen : k = true → s.klen = 16#8) :
    commandError i s = if k = true ∧ Config.ciphKeyOk s.keyBlock = false then some .keyRejected else none := by
  have hkeyed : keyedCommand i = k := by rcases hi with rfl | rfl <;> rfl
  rw [commandError, hkeyed]
  cases k with
  | false => rfl
  | true =>
    rw [keyCheck_of_length (hlen rfl)]
    cases Config.ciphKeyOk s.keyBlock <;> rfl

theorem exec_pipeline {i : Instr} {k : Bool} {s : State} (hi : i = .runenc k ∨ i = .rundec k) (hlen : k = true → s.klen = 16#8)
    (hl : s.ilen.toNat ≤ Config.capIn) :
    ∃ t, exec i s = .next t ∧ s.CommandFrame t ∧ t.entropyDraws = s.entropyDraws ∧
      if k = true ∧ Config.ciphKeyOk s.keyBlock = false then t.Failed 2#8
      else t.Delivers (commandOutput i s) ∧ t.olen.toNat = (commandOutput i s).length ∧ t.Succeeded := by
  have herr := commandError_pipeline hi hlen
  split
  case isTrue hrejected =>
    rw [if_pos hrejected] at herr
    obtain ⟨t, hexec, hframe, hdraws, hfailed, -⟩ := exec_fails herr
    exact ⟨t, hexec, hframe, hdraws, hfailed⟩
  case isFalse haccepted =>
    rw [if_neg haccepted] at herr
    have hdraw : entropyQueries i = 0 := by rcases hi with rfl | rfl <;> rfl
    obtain ⟨t, hexec, hout, hsucc, -, -, -, hframe, hdraws⟩ := exec_delivers herr (.inr hl)
    rw [hdraw] at hdraws
    exact ⟨t, hexec, hframe, hdraws, hout, hout.1, hsucc⟩

/-- Settles O41: RUNENC is keyed exactly when K is set, and `FPE_ENC` keeps the length of the packed text. -/
theorem runencDeliversThePipeline : Obligations.RunencDeliversThePipeline := by
  refine ⟨by decide, by decide, fun k s hlen hl => ?_, fun s hlen => ?_⟩
  · rw [← runencOutput_length k s]
    exact exec_pipeline (.inl rfl) hlen hl
  · obtain ⟨t, hexec, hframe, hdraws, hfailed, -⟩ := exec_keyed_wrongLength (i := .runenc true) rfl hlen
    exact ⟨t, hexec, hframe, hdraws, hfailed⟩

/-- Settles O42: RUNDEC is keyed exactly when K is set, and `FPE_DEC` keeps the length of the input. -/
theorem rundecDeliversThePipeline : Obligations.RundecDeliversThePipeline := by
  refine ⟨by decide, by decide, fun k s hlen hl => ?_, fun s hlen => ?_⟩
  · rw [← rundecOutput_length k s, ← rundecOutput_eq]
    exact exec_pipeline (.inr rfl) hlen hl
  · obtain ⟨t, hexec, hframe, hdraws, hfailed, -⟩ := exec_keyed_wrongLength (i := .rundec true) rfl hlen
    exact ⟨t, hexec, hframe, hdraws, hfailed⟩

/-! ## The frame of all commands -/

theorem entropyQueries_eq (i : Instr) : entropyQueries i = if i = .genkey then 1 else 0 := by
  cases i <;> simp [entropyQueries]

theorem keyedCommand_of_error {i : Instr} {s : State} {c : Cause} (h : commandError i s = some c) : keyedCommand i = true := by
  by_contra hk
  rw [commandError, if_neg hk] at h
  cases h

/-- Settles O47: by the two completions; a command that raises is keyed, so it is not GENKEY. -/
theorem commandsLeaveTheirOperands : Obligations.CommandsLeaveTheirOperands := by
  intro i s t h
  rw [← entropyQueries_eq]
  rcases exec_cases h with ⟨c, herr, rfl⟩ | ⟨-, -, rfl⟩
  · rw [entropyQueries_of_keyed (keyedCommand_of_error herr)]
    exact ⟨s.raiseError_frame c, rfl, rfl⟩
  · exact ⟨s.succeed_frame i _, rfl, rfl⟩

/-! ## Stages with a move between -/

theorem State.raiseError_errcode_ne_zero (s : State) (c : Cause) : (s.raiseError c).errcode ≠ 0#8 := by
  rw [State.raiseError_errcode]
  cases c <;> decide

/-- What the host finds in IBUF after it moved there what a command delivered (R199). -/
theorem inputBytes_of_moved_output {i : Instr} {s m t : State} (hl : i = .genkey ∨ s.ilen.toNat ≤ Config.capIn)
    (ht : t = (s.afterDraws i).succeed (commandOutput i s)) (hm : m.ilen = t.olen)
    (hb : ∀ j, j < t.olen.toNat → t.obufByte j = some (m.ibufByte j)) : m.inputBytes = commandOutput i s := by
  subst ht
  exact State.inputBytes_of_moved (State.succeed_delivers ((commandOutput_length_le hl).trans_lt Config.capOut_lt)) hm hb

/-- Settles O49: the key check of the pipeline is that of its keyed stage, and the other stage raises nothing; without an error the
moved output of the first stage is the input of the second. -/
theorem pipelineIsTheStagesWithAMoveBetween : Obligations.PipelineIsTheStagesWithAMoveBetween := by
  refine ⟨fun s => ⟨rfl, rfl⟩, fun s m t u ht hkey hklen hm hb hu => ?_, fun s m t u hl ht hm hb hu => ?_⟩
  · have hcheck : commandError (.runenc true) s = commandError .encrypt m := keyCheck_congr ⟨hkey.symm, hklen.symm⟩
    obtain ⟨c, herr, -⟩ | ⟨-, hl, rfl⟩ := exec_cases ht
    · cases herr
    have hin : m.inputBytes = enc s.inputBytes := inputBytes_of_moved_output (i := .encode) hl rfl hm hb
    rcases exec_cases hu with ⟨c, herr, rfl⟩ | ⟨hok, -, rfl⟩
    · exact ⟨_, exec_error (hcheck.trans herr), rfl, rfl, fun _ => rfl⟩
    · have hout : commandOutput (.runenc true) s = commandOutput .encrypt m := by
        simp only [commandOutput, if_true, hin, State.keyBlock_congr hkey]
      refine ⟨_, exec_success (hcheck.trans hok) (.inr (hl.resolve_left nofun)), ?_⟩
      rw [hout]
      exact ⟨rfl, rfl, fun _ => rfl⟩
  · rcases exec_cases ht with ⟨c, herr, rfl⟩ | ⟨hok, -, rfl⟩
    · refine ⟨s.raiseError c, exec_error (i := .rundec true) herr, rfl, ?_⟩
      rw [if_neg (s.raiseError_errcode_ne_zero c)]
      exact s.raiseError_failed c
    · have hin : m.inputBytes = fpeDec Config.ciph s.keyBlock s.inputBytes :=
        inputBytes_of_moved_output (i := .decrypt) (.inr hl) rfl hm hb
      obtain ⟨c, herr, -⟩ | ⟨-, -, rfl⟩ := exec_cases hu
      · cases herr
      have hout : commandOutput (.rundec true) s = commandOutput .decode m := by
        simp only [commandOutput, if_true, hin]
      refine ⟨_, exec_success (i := .rundec true) hok (.inr hl), rfl, ?_⟩
      rw [hout]
      exact ⟨rfl, fun _ => rfl⟩

/-! ## The round trip -/

theorem runDec_runEnc (ciph : Block → Block → Block) (unk : Byte) (key : Option Block) (t : List Byte) :
    runDec ciph unk key (runEnc ciph key t) = dec unk (enc t) := by
  cases key with
  | none => rfl
  | some k => exact congrArg (dec unk) (fpeDec_fpeEnc ciph k (enc t))

theorem commandOutput_runenc (k : Bool) (s : State) :
    commandOutput (.runenc k) s = runEnc Config.ciph (if k then some s.keyBlock else none) s.inputBytes := by
  cases k <;> rfl

theorem commandOutput_rundec (k : Bool) (s : State) :
    commandOutput (.rundec k) s = runDec Config.ciph Config.unkChar (if k then some s.keyBlock else none) s.inputBytes := by
  cases k <;> rfl

theorem commandError_rundec (k : Bool) {s m : State} (hkey : m.key = s.key) (hklen : m.klen = s.klen) :
    commandError (.rundec k) m = commandError (.runenc k) s := by
  cases k with
  | false => rfl
  | true => exact keyCheck_congr ⟨hkey, hklen⟩

/-- Settles O50: `FPE_DEC` undoes `FPE_ENC`, and RUNDEC meets the key check that RUNENC met. -/
theorem rundecUndoesRunenc : Obligations.RundecUndoesRunenc := by
  refine ⟨runDec_runEnc, fun k s m t ht hkey hklen hm hb => ?_⟩
  have hcheck := commandError_rundec k hkey hklen
  rcases exec_cases ht with ⟨c, herr, rfl⟩ | ⟨hok, hl, rfl⟩
  · refine ⟨m.raiseError c, exec_error (hcheck.trans herr), rfl, ?_⟩
    rw [if_neg (s.raiseError_errcode_ne_zero c)]
    exact m.raiseError_failed c
  · have hin : m.inputBytes = commandOutput (.runenc k) s := inputBytes_of_moved_output hl rfl hm hb
    have hfits : m.ilen.toNat ≤ Config.capIn := by
      have hs := hl.resolve_left nofun
      rw [← m.inputBytes_length, hin, runencOutput_length]
      omega
    have hround : commandOutput (.rundec k) m = dec Config.unkChar (enc s.inputBytes) := by
      rw [commandOutput_rundec, hin, commandOutput_runenc, State.keyBlock_congr hkey, runDec_runEnc]
    obtain ⟨u, hexec, hout, ⟨-, herrcode⟩, -⟩ := exec_delivers (hcheck.trans hok) (.inr hfits)
    rw [hround] at hout
    exact ⟨u, hexec, herrcode, hout⟩

end Sys2Proof.Machine
end

section
/-! PROOFS. The causes of the commands: the wrong key length, O44, which cause a keyed command reports, O45, and that a command
without a key raises none, O46 (spec/60_exceptions.md R211, R212, R214 to R217 and R225). -/

namespace Sys2Proof.Machine

/-- Settles O44: the length of the key is checked before anything else. -/
theorem wrongKeyLengthEndsInCauseOne : Obligations.WrongKeyLengthEndsInCauseOne := by
  intro i s hk hlen
  obtain ⟨t, hexec, hframe, hdraws, hfailed, hquiet⟩ := exec_keyed_wrongLength hk hlen
  exact ⟨t, hexec, hfailed, hframe, hdraws, hquiet⟩

/-- The three ends of a keyed command, in the order of `KEYCHK` (R211, R212, R217). -/
theorem exec_keyed_ends {i : Instr} {s : State} (hk : keyedCommand i = true) (hl : s.ilen.toNat ≤ Config.capIn) :
    ∃ t, exec i s = .next t ∧
      (s.klen ≠ 16#8 ∧ t.Failed 1#8 ∨
        s.klen = 16#8 ∧ Config.ciphKeyOk s.keyBlock = false ∧ t.Failed 2#8 ∨
        s.klen = 16#8 ∧ Config.ciphKeyOk s.keyBlock = true ∧ t.Succeeded) := by
  by_cases hlen : s.klen = 16#8
  · obtain ⟨t, hexec, -, -, hend⟩ := exec_keyed hk hlen hl
    refine ⟨t, hexec, .inr ?_⟩
    split_ifs at hend with hok
    · exact .inr ⟨hlen, hok, hend.2⟩
    · exact .inl ⟨hlen, Bool.eq_false_of_not_eq_true hok, hend.1⟩
  · obtain ⟨t, hexec, -, -, hfailed, -⟩ := exec_keyed_wrongLength hk hlen
    exact ⟨t, hexec, .inl ⟨hlen, hfailed⟩⟩

/-- Settles O45: the three ends exclude each other, and each has its own ERRCODE. -/
theorem causeOfAKeyedCommandIsExact : Obligations.CauseOfAKeyedCommandIsExact := by
  intro i s hk hl
  obtain ⟨t, hexec, hend⟩ := exec_keyed_ends hk hl
  refine ⟨t, hexec, ?_⟩
  rcases hend with ⟨hlen, hstatus, herrcode, -⟩ | ⟨hlen, hok, hstatus, herrcode, -⟩ | ⟨hlen, hok, hstatus, herrcode⟩
  · simp [hlen, hstatus, herrcode]
  · simp [hlen, hok, hstatus, herrcode]
  · simp [hlen, hok, hstatus, herrcode]

/-- Settles O46: a command without a key checks none, and CAP_OUT has room for its output. -/
theorem unkeyedCommandsNeverRaise : Obligations.UnkeyedCommandsNeverRaise := by
  intro i s hk hl
  have herr : commandError i s = none := if_neg (ne_true_of_eq_false hk)
  obtain ⟨t, hexec, hout, hsucc, -⟩ := exec_delivers herr (.inr hl)
  exact ⟨t, hexec, hsucc, hout.1.trans_le (commandOutput_length_le (.inr hl))⟩

end Sys2Proof.Machine
end

section
/-! PROOFS. A RESET in the host's turn, at an idle core or before Complete, and one that falls after Complete, O9
(spec/70_reset_and_hazards.md R240, R241 and R243, spec/10_state.md R39, spec/20_memory.md R59). -/

namespace Sys2Proof.Machine

theorem State.resetEvent_keyByte (s : State) (i : Nat) : s.resetEvent.keyByte i = 0x00#8 := State.reset_keyByte i

/-- After a RESET no IBUF byte is listed, so each reads as the next unknown content (R39). -/
theorem State.resetEvent_ibufByte (s : State) (j : Nat) :
    s.resetEvent.ibufByte j = Config.ibufInit (s.ibufSeed + 1) j := rfl

theorem State.resetEvent_obufByte (s : State) (j : Nat) : s.resetEvent.obufByte j = none :=
  State.obufByte_of_olen_zero s.resetEvent_olen j

/-- A RESET is performed by an idle core, and by a busy core when it falls before Complete (R59, R243). -/
theorem step_reset {s : State} {e : Bool} {rest : List HostReq} (hi : s.inbox = ⟨.reset, e⟩ :: rest)
    (h : s.busy = false ∨ e = true) : step s = .next (s.takeRequest rest).resetEvent := by
  cases hb : s.busy with
  | false => exact step_idle hb hi
  | true =>
    obtain rfl : e = true := h.resolve_left (by simp [hb])
    exact step_host (hostTurn_busy hb hi)

/-- Settles O9: the host's turn leaves the values of the reset event; a RESET after Complete is held like any other transaction. -/
theorem resetTakesEffectAtOnce : Obligations.ResetTakesEffectAtOnce := by
  refine ⟨fun s e rest hi h => ?_, fun s rest hs hb hi => ?_⟩
  · exact ⟨(s.takeRequest rest).resetEvent, step_reset hi h, rfl, rfl, fun i _ => State.resetEvent_keyByte _ i, rfl, rfl, rfl,
      State.resetEvent_phase _, State.resetEvent_ibufByte _, State.resetEvent_obufByte _, rfl, rfl, rfl, rfl⟩
  · obtain ⟨t, hstep, hcomplete, -, hdone, -, hnext⟩ := step_of_held hs.ilen hb hi rfl
    exact ⟨t, hstep, hcomplete, hdone, hnext⟩

end Sys2Proof.Machine
end
